-- ==== Sys2Proof/Word.lean ====
section
/-! DEFINITION. The word types of the engine (00_scope.md R8, R10): every value is unsigned. -/

namespace Sys2Proof

/-- A general register, a timer, a key entry or a memory byte: 8 bits, unsigned (R8, R10, R20). -/
abbrev Byte := BitVec 8

/-- An instruction word, the index register, the program counter or a stack entry: 16 bits (R8, R70). -/
abbrev Word := BitVec 16

/-- The 12-bit operand `NNN` of an instruction word (R71, R73). -/
abbrev Addr12 := BitVec 12

/-- A register number `0x0` to `0xF`, naming exactly one of `V0` to `VF` (R20). -/
abbrev Reg := Fin 16

/-- `VF` is element 15 of the register file, not a field of its own (R21). -/
abbrev vf : Reg := 15

end Sys2Proof
end

