-- ==== Sys2Proof/Config.lean ====
section
/-! DEFINITION. The engine's parameters (00_scope.md R8) and its free values.
The parameter `FONT` is an argument of `load` (`Machine/Transactions.lean`); its type and default stand in
`Machine/Font.lean` (R266). -/

namespace Sys2Proof.Config

/-- `MEM_SIZE`: 4096 bytes (R8, R50). -/
abbrev memSize : Nat := 4096

/-- `LOAD_ADDR`: programs load at 0x200 and the first step fetches there (R8, R51, R263). -/
abbrev loadAddr : Nat := 0x200

/-- `ROM_MAX`: the longest program `load` accepts (R8, R262). -/
abbrev romMax : Nat := 3584

/-- `FONT_ADDR`: the font table starts at 0x000 (R8, R265). -/
abbrev fontAddr : Nat := 0

/-- `FONT_GLYPH_BYTES`: one glyph is 5 bytes (R8, R265). -/
abbrev fontGlyphBytes : Nat := 5

/-- `STACK_DEPTH`: 16 entries (R8, R29). -/
abbrev stackDepth : Nat := 16

/-- `FB_W`: 64 columns (R8, R35). -/
abbrev fbWidth : Nat := 64

/-- `FB_H`: 32 rows (R8, R35). -/
abbrev fbHeight : Nat := 32

/-- `NUM_KEYS`: 16 keys (R8, R33). -/
abbrev numKeys : Nat := 16

/-- FREE VALUE (R100, R145; assumption 1). The random byte that the `n`-th call of `draw8()` answers: any 8-bit value, with
no distribution and no relation between two draws. It has no body, so no proof can know a byte of it. -/
opaque randomByte : Nat → Byte

/-- OPEN parameter `STEPS_PER_FRAME` (R8, R285; assumption 12): how many steps the host runs per frame. The source used 3;
no rule of the engine depends on it, so it has no body here. -/
opaque stepsPerFrame : Nat

end Sys2Proof.Config
end

