-- ==== Sys2Proof/Syntax.lean ====
section
/-! DEFINITION. The 34 instructions, one constructor per row of spec/opcode_table.json, in the table's order
(30_encoding.md R74). Operands are the fields of R71: register numbers `X`, `Y`; the byte `NN`; the address `NNN`;
the row count `N`. -/

namespace Sys2Proof

/-- The instruction set (R74). An ignored field is no operand, except the `Y` of the shifts, which the table lists as a
field ("decoded but not read", R129). -/
inductive Instr where
  /-- 00E0 `CLS`: clear the framebuffer (R180). -/
  | cls
  /-- 00EE `RET`: return from subroutine (R112). -/
  | ret
  /-- 1NNN `JP NNN`: jump (R113). -/
  | jp (nnn : Addr12)
  /-- 2NNN `CALL NNN`: call subroutine (R114). -/
  | call (nnn : Addr12)
  /-- 3XNN `SE VX, NN`: skip if equal (R115). -/
  | seVxNN (x : Reg) (nn : Byte)
  /-- 4XNN `SNE VX, NN`: skip if not equal (R116). -/
  | sneVxNN (x : Reg) (nn : Byte)
  /-- 5XY0 `SE VX, VY`: skip if equal (R117). -/
  | seVxVy (x y : Reg)
  /-- 9XY0 `SNE VX, VY`: skip if not equal (R118). -/
  | sneVxVy (x y : Reg)
  /-- 6XNN `LD VX, NN`: load immediate (R130). -/
  | ldVxNN (x : Reg) (nn : Byte)
  /-- 7XNN `ADD VX, NN`: add immediate, no flag (R131). -/
  | addVxNN (x : Reg) (nn : Byte)
  /-- 8XY0 `LD VX, VY`: copy (R132). -/
  | ldVxVy (x y : Reg)
  /-- 8XY1 `OR VX, VY` (R133). -/
  | orVxVy (x y : Reg)
  /-- 8XY2 `AND VX, VY` (R134). -/
  | andVxVy (x y : Reg)
  /-- 8XY3 `XOR VX, VY` (R135). -/
  | xorVxVy (x y : Reg)
  /-- 8XY4 `ADD VX, VY`: add with carry to VF (R136). -/
  | addVxVy (x y : Reg)
  /-- 8XY5 `SUB VX, VY`: `V[X] - V[Y]`, no-borrow to VF (R137). -/
  | subVxVy (x y : Reg)
  /-- 8XY6 `SHR VX`: shift right, bit 0 to VF; `y` is not read (R138, R129). -/
  | shrVx (x y : Reg)
  /-- 8XY7 `SUBN VX, VY`: `V[Y] - V[X]`, no-borrow to VF (R139). -/
  | subnVxVy (x y : Reg)
  /-- 8XYE `SHL VX`: shift left, bit 7 to VF; `y` is not read (R140, R129). -/
  | shlVx (x y : Reg)
  /-- ANNN `LD I, NNN`: set the index register (R160). -/
  | ldINNN (nnn : Addr12)
  /-- BNNN `JP V0, NNN`: jump to `NNN + V0` (R119). -/
  | jpV0 (nnn : Addr12)
  /-- CXNN `RND VX, NN`: random byte masked with `NN` (R145). -/
  | rndVxNN (x : Reg) (nn : Byte)
  /-- DXYN `DRW VX, VY, N`: XOR-blit an `N`-row sprite (R183). -/
  | drw (x y : Reg) (n : Nat)
  /-- EX9E `SKP VX`: skip if the key is pressed (R201). -/
  | skp (x : Reg)
  /-- EXA1 `SKNP VX`: skip if the key is not pressed (R202). -/
  | sknp (x : Reg)
  /-- FX07 `LD VX, DT`: read the delay timer (R205). -/
  | ldVxDT (x : Reg)
  /-- FX15 `LD DT, VX`: set the delay timer (R206). -/
  | ldDTVx (x : Reg)
  /-- FX18 `LD ST, VX`: set the sound timer (R207). -/
  | ldSTVx (x : Reg)
  /-- FX0A `LD VX, K`: wait for a key (R203). -/
  | ldVxK (x : Reg)
  /-- FX1E `ADD I, VX`: add to the index register (R161). -/
  | addIVx (x : Reg)
  /-- FX29 `LD F, VX`: point `I` at a glyph (R162). -/
  | ldFVx (x : Reg)
  /-- FX33 `LD B, VX`: store the decimal digits (R163). -/
  | ldBVx (x : Reg)
  /-- FX55 `LD [I], VX`: store `V[0]` to `V[X]` (R164). -/
  | ldMemVx (x : Reg)
  /-- FX65 `LD VX, [I]`: load `V[0]` to `V[X]` (R165). -/
  | ldVxMem (x : Reg)
  deriving DecidableEq, Repr

end Sys2Proof
end

