-- ==== Sys2Proof/WellFormed.lean ====
section
/-! DEFINITION. Which terms stand for something the spec has. The ranges of `X`, `Y`, `NN` and `NNN` are carried by their
types; what remains is the sprite height, the length of a program and the width of a font's glyphs. -/

namespace Sys2Proof

/-- `N` is a 4-bit unsigned count, 0 to 15 (30_encoding.md R73). -/
def heightOk (n : Nat) : Bool := decide (n ≤ 15)

/-- An instruction term is well formed when every operand fits its field (R71, R73). -/
def Instr.wf : Instr → Bool
  | .drw _ _ n => heightOk n
  | .cls | .ret | .jp _ | .call _ => true
  | .seVxNN _ _ | .sneVxNN _ _ | .seVxVy _ _ | .sneVxVy _ _ => true
  | .ldVxNN _ _ | .addVxNN _ _ | .ldVxVy _ _ | .orVxVy _ _ | .andVxVy _ _ | .xorVxVy _ _ => true
  | .addVxVy _ _ | .subVxVy _ _ | .shrVx _ _ | .subnVxVy _ _ | .shlVx _ _ => true
  | .ldINNN _ | .jpV0 _ | .rndVxNN _ _ | .skp _ | .sknp _ => true
  | .ldVxDT _ | .ldDTVx _ | .ldSTVx _ | .ldVxK _ => true
  | .addIVx _ | .ldFVx _ | .ldBVx _ | .ldMemVx _ | .ldVxMem _ => true

/-- The bytes of a font (70_reset_and_hazards.md R265): a glyph is 4 pixels wide, held in bits 7 to 4 of each byte, and bits 3
to 0 are 0. -/
def fontOk (bytes : Vector Byte 80) : Bool := bytes.toList.all fun b => b.extractLsb' 0 4 == 0#4

/-- A program `load` accepts: any length 0 to 3584, odd lengths included (70_reset_and_hazards.md R260, R262). -/
def romOk (rom : List Byte) : Bool := decide (rom.length ≤ Config.romMax)

end Sys2Proof
end

