-- ==== Sys2Proof/Decode.lean ====
section
/-! DEFINITION. The decoder, the encoder and the opcode table (30_encoding.md R70 to R84). -/

namespace Sys2Proof

/-- What the decoder answers for one instruction word (R75, R78): one instruction, or `Unknown`. -/
inductive Decoded where
  /-- the word selects a row of the table (R74) -/
  | instr (i : Instr)
  /-- the word selects no row (R79); it is rejected by this name, with its bit pattern (R221) -/
  | unknown (w : Word)
  deriving DecidableEq, Repr

/-- What the decoder answers for a stream of bytes: `Decoded` and the rest, or that there is no whole word. -/
inductive ByteDecode where
  | word (d : Decoded) (rest : List Byte)
  /-- fewer than the two bytes an instruction takes (R70) -/
  | truncated
  deriving DecidableEq, Repr

/-- `op = w[15:12]` (R71). -/
def fieldOp (w : Word) : Nat := (w.extractLsb' 12 4).toNat

/-- `X = w[11:8]`, a register number (R71). -/
def fieldX (w : Word) : Reg := ⟨(w.extractLsb' 8 4).toNat, (w.extractLsb' 8 4).isLt⟩

/-- `Y = w[7:4]`, a register number (R71). -/
def fieldY (w : Word) : Reg := ⟨(w.extractLsb' 4 4).toNat, (w.extractLsb' 4 4).isLt⟩

/-- `N = w[3:0]`, also `lo4` (R71). -/
def fieldN (w : Word) : Nat := (w.extractLsb' 0 4).toNat

/-- `NN = w[7:0]`, also `lo8` (R71). -/
def fieldNN (w : Word) : Byte := w.extractLsb' 0 8

/-- `NNN = w[11:0]` (R71). -/
def fieldNNN (w : Word) : Addr12 := w.extractLsb' 0 12

/-- Group 0 matches the low byte only; bits 11-8 are ignored (R75, R76). -/
def decodeGroup0 (w : Word) : Decoded :=
  match (fieldNN w).toNat with
  | 0xE0 => .instr .cls
  | 0xEE => .instr .ret
  | _ => .unknown w

/-- Group 8 matches the low nibble (R75). -/
def decodeGroup8 (w : Word) : Decoded :=
  match fieldN w with
  | 0x0 => .instr (.ldVxVy (fieldX w) (fieldY w))
  | 0x1 => .instr (.orVxVy (fieldX w) (fieldY w))
  | 0x2 => .instr (.andVxVy (fieldX w) (fieldY w))
  | 0x3 => .instr (.xorVxVy (fieldX w) (fieldY w))
  | 0x4 => .instr (.addVxVy (fieldX w) (fieldY w))
  | 0x5 => .instr (.subVxVy (fieldX w) (fieldY w))
  | 0x6 => .instr (.shrVx (fieldX w) (fieldY w))
  | 0x7 => .instr (.subnVxVy (fieldX w) (fieldY w))
  | 0xE => .instr (.shlVx (fieldX w) (fieldY w))
  | _ => .unknown w

/-- Group E matches the low byte (R75). -/
def decodeGroupE (w : Word) : Decoded :=
  match (fieldNN w).toNat with
  | 0x9E => .instr (.skp (fieldX w))
  | 0xA1 => .instr (.sknp (fieldX w))
  | _ => .unknown w

/-- Group F matches the low byte (R75). -/
def decodeGroupF (w : Word) : Decoded :=
  match (fieldNN w).toNat with
  | 0x07 => .instr (.ldVxDT (fieldX w))
  | 0x0A => .instr (.ldVxK (fieldX w))
  | 0x15 => .instr (.ldDTVx (fieldX w))
  | 0x18 => .instr (.ldSTVx (fieldX w))
  | 0x1E => .instr (.addIVx (fieldX w))
  | 0x29 => .instr (.ldFVx (fieldX w))
  | 0x33 => .instr (.ldBVx (fieldX w))
  | 0x55 => .instr (.ldMemVx (fieldX w))
  | 0x65 => .instr (.ldVxMem (fieldX w))
  | _ => .unknown w

/-- `Decode(w)` (R75): by the high nibble, and for the ambiguous groups 0, 8, E and F by a secondary match. Groups 5 and 9
ignore bits 3-0 (R77). It reads only `w`. -/
def decode (w : Word) : Decoded :=
  match fieldOp w with
  | 0x0 => decodeGroup0 w
  | 0x1 => .instr (.jp (fieldNNN w))
  | 0x2 => .instr (.call (fieldNNN w))
  | 0x3 => .instr (.seVxNN (fieldX w) (fieldNN w))
  | 0x4 => .instr (.sneVxNN (fieldX w) (fieldNN w))
  | 0x5 => .instr (.seVxVy (fieldX w) (fieldY w))
  | 0x6 => .instr (.ldVxNN (fieldX w) (fieldNN w))
  | 0x7 => .instr (.addVxNN (fieldX w) (fieldNN w))
  | 0x8 => decodeGroup8 w
  | 0x9 => .instr (.sneVxVy (fieldX w) (fieldY w))
  | 0xA => .instr (.ldINNN (fieldNNN w))
  | 0xB => .instr (.jpV0 (fieldNNN w))
  | 0xC => .instr (.rndVxNN (fieldX w) (fieldNN w))
  | 0xD => .instr (.drw (fieldX w) (fieldY w) (fieldN w))
  | 0xE => decodeGroupE w
  | 0xF => decodeGroupF w
  | _ => .unknown w

/-- Byte order (20_memory.md R55, R56): the byte at the lower address is bits 15-8 of the word, `hi ++ lo`. -/
def joinBytes (hi lo : Byte) : Word := hi ++ lo

/-- Bits 15-8 of a word, the byte at the lower address (R55). -/
def highByte (w : Word) : Byte := w.extractLsb' 8 8

/-- Bits 7-0 of a word, the byte at the higher address (R55). -/
def lowByte (w : Word) : Byte := w.extractLsb' 0 8

/-- Decoding a stream of bytes: always the two bytes at the front (R70). -/
def decodeBytes : List Byte → ByteDecode
  | hi :: lo :: rest => .word (decode (joinBytes hi lo)) rest
  | _ => .truncated

/-- The bytes of a word as memory holds them, lowest address first (R55). -/
def wordBytes (w : Word) : List Byte := [highByte w, lowByte w]

/-- The decoder's answer for the word whose low `nbits` bits are `w`'s, numbered as spec/opcode_table.json numbers them. -/
def decodeTableWord (nbits w : Nat) : Option Instr :=
  match decodeBytes (wordBytes (BitVec.ofNat 16 (w % 2 ^ nbits))) with
  | .word (.instr i) _ => some i
  | .word (.unknown _) _ => none
  | .truncated => none

/-! ### The encoder, from the `match` words of R74 and the fields of R71 (R83: ignored bits are written as 0). -/

/-- Layout `A`: `op` and `NNN` (R72). -/
def encodeA (op : BitVec 4) (nnn : Addr12) : Word := op ++ nnn

/-- Layouts `XK` and `XF`: `op`, `X` and a byte (R72). -/
def encodeXK (op : BitVec 4) (x : Reg) (k : Byte) : Word := op ++ BitVec.ofNat 4 x.val ++ k

/-- Layouts `XY` and `XYN`: `op`, `X`, `Y` and a nibble (R72). -/
def encodeXYN (op : BitVec 4) (x y : Reg) (n : BitVec 4) : Word :=
  op ++ BitVec.ofNat 4 x.val ++ BitVec.ofNat 4 y.val ++ n

/-- The word of a well-formed instruction: the match word of its row with every operand inserted, the `Y` that the shifts do not
read included (R71, R83). An assembler, which does not spell that `Y`, encodes `Machine.asWritten` (R84). -/
def encode : Instr → Word
  | .cls => encodeA 0x0 0x0E0
  | .ret => encodeA 0x0 0x0EE
  | .jp nnn => encodeA 0x1 nnn
  | .call nnn => encodeA 0x2 nnn
  | .seVxNN x nn => encodeXK 0x3 x nn
  | .sneVxNN x nn => encodeXK 0x4 x nn
  | .seVxVy x y => encodeXYN 0x5 x y 0x0
  | .sneVxVy x y => encodeXYN 0x9 x y 0x0
  | .ldVxNN x nn => encodeXK 0x6 x nn
  | .addVxNN x nn => encodeXK 0x7 x nn
  | .ldVxVy x y => encodeXYN 0x8 x y 0x0
  | .orVxVy x y => encodeXYN 0x8 x y 0x1
  | .andVxVy x y => encodeXYN 0x8 x y 0x2
  | .xorVxVy x y => encodeXYN 0x8 x y 0x3
  | .addVxVy x y => encodeXYN 0x8 x y 0x4
  | .subVxVy x y => encodeXYN 0x8 x y 0x5
  | .shrVx x y => encodeXYN 0x8 x y 0x6
  | .subnVxVy x y => encodeXYN 0x8 x y 0x7
  | .shlVx x y => encodeXYN 0x8 x y 0xE
  | .ldINNN nnn => encodeA 0xA nnn
  | .jpV0 nnn => encodeA 0xB nnn
  | .rndVxNN x nn => encodeXK 0xC x nn
  | .drw x y n => encodeXYN 0xD x y (BitVec.ofNat 4 n)
  | .skp x => encodeXK 0xE x 0x9E
  | .sknp x => encodeXK 0xE x 0xA1
  | .ldVxDT x => encodeXK 0xF x 0x07
  | .ldDTVx x => encodeXK 0xF x 0x15
  | .ldSTVx x => encodeXK 0xF x 0x18
  | .ldVxK x => encodeXK 0xF x 0x0A
  | .addIVx x => encodeXK 0xF x 0x1E
  | .ldFVx x => encodeXK 0xF x 0x29
  | .ldBVx x => encodeXK 0xF x 0x33
  | .ldMemVx x => encodeXK 0xF x 0x55
  | .ldVxMem x => encodeXK 0xF x 0x65

/-- The two bytes of an instruction in memory (R83, R55). -/
def encodeBytes (i : Instr) : List Byte := wordBytes (encode i)

/-! ### The opcode table, as the spec prints it (R74). -/

/-- One row of R74: a word selects it when `w AND mask = match`. -/
structure OpcodeRow where
  pattern : String
  matchWord : Word
  mask : Word
  deriving DecidableEq, Repr

/-- A word selects a row when `w AND mask = match` (R74). -/
def OpcodeRow.selects (r : OpcodeRow) (w : Word) : Bool := w &&& r.mask == r.matchWord

/-- Rows 1 to 19 of R74. -/
def opcodeRowsLow : List OpcodeRow :=
  [⟨"00E0", 0x00E0, 0xF0FF⟩, ⟨"00EE", 0x00EE, 0xF0FF⟩, ⟨"1NNN", 0x1000, 0xF000⟩, ⟨"2NNN", 0x2000, 0xF000⟩,
   ⟨"3XNN", 0x3000, 0xF000⟩, ⟨"4XNN", 0x4000, 0xF000⟩, ⟨"5XY0", 0x5000, 0xF000⟩, ⟨"9XY0", 0x9000, 0xF000⟩,
   ⟨"6XNN", 0x6000, 0xF000⟩, ⟨"7XNN", 0x7000, 0xF000⟩, ⟨"8XY0", 0x8000, 0xF00F⟩, ⟨"8XY1", 0x8001, 0xF00F⟩,
   ⟨"8XY2", 0x8002, 0xF00F⟩, ⟨"8XY3", 0x8003, 0xF00F⟩, ⟨"8XY4", 0x8004, 0xF00F⟩, ⟨"8XY5", 0x8005, 0xF00F⟩,
   ⟨"8XY6", 0x8006, 0xF00F⟩, ⟨"8XY7", 0x8007, 0xF00F⟩, ⟨"8XYE", 0x800E, 0xF00F⟩]

/-- Rows 20 to 34 of R74. -/
def opcodeRowsHigh : List OpcodeRow :=
  [⟨"ANNN", 0xA000, 0xF000⟩, ⟨"BNNN", 0xB000, 0xF000⟩, ⟨"CXNN", 0xC000, 0xF000⟩, ⟨"DXYN", 0xD000, 0xF000⟩,
   ⟨"EX9E", 0xE09E, 0xF0FF⟩, ⟨"EXA1", 0xE0A1, 0xF0FF⟩, ⟨"FX07", 0xF007, 0xF0FF⟩, ⟨"FX15", 0xF015, 0xF0FF⟩,
   ⟨"FX18", 0xF018, 0xF0FF⟩, ⟨"FX0A", 0xF00A, 0xF0FF⟩, ⟨"FX1E", 0xF01E, 0xF0FF⟩, ⟨"FX29", 0xF029, 0xF0FF⟩,
   ⟨"FX33", 0xF033, 0xF0FF⟩, ⟨"FX55", 0xF055, 0xF0FF⟩, ⟨"FX65", 0xF065, 0xF0FF⟩]

/-- The 34 rows of R74, in its order. -/
def opcodeTable : List OpcodeRow := opcodeRowsLow ++ opcodeRowsHigh

/-- The number of the row of R74 that an instruction belongs to, counting from 0. -/
def rowIndex : Instr → Nat
  | .cls => 0 | .ret => 1 | .jp _ => 2 | .call _ => 3
  | .seVxNN _ _ => 4 | .sneVxNN _ _ => 5 | .seVxVy _ _ => 6 | .sneVxVy _ _ => 7
  | .ldVxNN _ _ => 8 | .addVxNN _ _ => 9 | .ldVxVy _ _ => 10 | .orVxVy _ _ => 11
  | .andVxVy _ _ => 12 | .xorVxVy _ _ => 13 | .addVxVy _ _ => 14 | .subVxVy _ _ => 15
  | .shrVx _ _ => 16 | .subnVxVy _ _ => 17 | .shlVx _ _ => 18
  | .ldINNN _ => 19 | .jpV0 _ => 20 | .rndVxNN _ _ => 21 | .drw _ _ _ => 22
  | .skp _ => 23 | .sknp _ => 24 | .ldVxDT _ => 25 | .ldDTVx _ => 26 | .ldSTVx _ => 27
  | .ldVxK _ => 28 | .addIVx _ => 29 | .ldFVx _ => 30 | .ldBVx _ => 31 | .ldMemVx _ => 32 | .ldVxMem _ => 33

end Sys2Proof
end

