-- ==== Sys2Proof/Machine/State.lean ====
section
/-! DEFINITION. The engine's state (10_state.md), its faults (60_exceptions.md) and its reset (70_reset_and_hazards.md). -/

namespace Sys2Proof.Machine

/-- The two stack faults (R223). -/
inductive StackFaultKind where
  /-- a push onto a full call stack: 2NNN with `sp = 16` -/
  | overflow
  /-- a pop from an empty call stack: 00EE with `sp = 0` -/
  | underflow
  deriving DecidableEq, Repr

/-- The faults of R228, codes 3 to 7, with their recorded values. A fault is the spec's own answer of `step` or `load`: the
call changed no state (R226, R227), so each is exact, and safe. -/
inductive Fault where
  /-- `MemoryFault(a)` (R222): raised by the fetch, DXYN, FX33, FX55 and FX65; `addr` is the lowest address above 0xFFF.
  Safe: the spec's own fault. -/
  | memoryFault (addr : Nat)
  /-- `StackFault` (R223): raised by 2NNN and 00EE; `pc` is the address of the faulting instruction (R110, R111).
  Safe: the spec's own fault. -/
  | stackFault (kind : StackFaultKind) (pc : Word)
  /-- `DisplayFault(column, row)` (R224): raised by DXYN for its first off-grid set pixel. Safe: the spec's own fault. -/
  | displayFault (column row : Nat)
  /-- `KeyFault(k)` (R225): raised by EX9E and EXA1 when `V[X] > 0xF`. Safe: the spec's own fault. -/
  | keyFault (key : Byte)
  /-- `RomTooLarge(len)` (R227): raised by `load` only, never by a step. Safe: the spec's own fault. -/
  | romTooLarge (length : Nat)
  deriving DecidableEq, Repr

/-- Reasons the model has no meaning for an instruction. -/
inductive Refusal where
  /-- raised by an arm of `exec` whose instruction has no meaning yet; no arm of this model raises it. Safe: it stops. -/
  | notModelled (mnemonic : String)
  deriving DecidableEq, Repr

/-- The outcomes of `step` and `load` (R99, R228): codes 0, 1, 2 and 8, and the faults, codes 3 to 7. -/
inductive Report where
  /-- code 0 `Completed`: an instruction ran to its end (R99) -/
  | completed
  /-- code 1 `Waiting`: FX0A found no key pressed (R204) -/
  | waiting
  /-- code 2 `Unknown(w)`: the word decoded to no instruction (R221) -/
  | unknown (w : Word)
  /-- codes 3 to 7: `step` or `load` raised a fault (R226, R227) -/
  | fault (f : Fault)
  /-- code 8 `Loaded`: `load` reset the engine (R260) -/
  | loaded
  deriving DecidableEq, Repr

/-- The 64 x 32 one-bit framebuffer (R35): row `y` is 64 one-bit cells, column 0 the most significant, as bit 7 of a sprite
byte is its leftmost pixel (R181). Assumption 4. -/
abbrev Framebuffer := Vector (BitVec 64) 32

/-- The 4096-byte memory (R36, R50), as its cells that differ from the contents `load` gives under the default
`FONT` (`Memory.initial`), in rising address order. Assumption 3. -/
abbrev Memory := List Host.Cell

/-- Every piece of state of 10_state.md, the step's two outputs (R38) and the model's own draw counter. -/
structure State where
  /-- `V0` to `VF`, 8 bits each; `VF` is element 15 (R20, R21) -/
  v : Vector Byte 16
  /-- the index register `I`, 16 bits (R26) -/
  index : Word
  /-- the program counter, 16 bits (R27, R28) -/
  pc : Word
  /-- the number of stack entries in use, 0 to 16 (R29) -/
  sp : Fin 17
  /-- `Stack[0]` to `Stack[15]`, 16 bits each (R30) -/
  stack : Vector Word 16
  /-- the delay timer `DT`, 8 bits (R31) -/
  dt : Byte
  /-- the sound timer `ST`, 8 bits (R31) -/
  st : Byte
  /-- `drawFlag` (R32) -/
  drawFlag : Bool
  /-- the key matrix `Key[0]` to `Key[15]`, one byte each, written by the host (R33) -/
  keys : Vector Byte 16
  /-- the framebuffer `FB` (R35) -/
  fb : Framebuffer
  /-- the memory (R36) -/
  mem : Memory
  /-- OUTPUT, read by no step: the outcome of the last step, a faulted one included; `Loaded` after `load` (R99, R38;
  assumption 2) -/
  outcome : Report
  /-- OUTPUT, read by no step: the sound trigger of the last step, false when it faulted (R240, R99, R38; assumption 2) -/
  sound : Bool
  /-- THE MODEL'S OWN: how many random bytes have been drawn, so that each draw is a free value of its own (assumption 1) -/
  draws : Nat
  deriving DecidableEq, Repr

/-- The state after `load` of an empty program under the default `FONT` (R39, R260, R266): every register 0, the stack empty,
`pc = 0x200`, memory the font and zeros. `resetWith` is the same under any font. -/
def State.reset : State where
  v := Vector.replicate 16 0
  index := 0
  pc := 0x200
  sp := 0
  stack := Vector.replicate 16 0
  dt := 0
  st := 0
  drawFlag := false
  keys := Vector.replicate 16 0
  fb := Vector.replicate 32 0
  mem := []
  outcome := .loaded
  sound := false
  draws := 0

end Sys2Proof.Machine
end

