-- ==== Sys2Proof/Machine/Font.lean ====
section
/-! DEFINITION. The type of the `FONT` parameter and its default (00_scope.md R8, 70_reset_and_hazards.md R266), and the
contents that memory's list of cells is written against. -/

namespace Sys2Proof.Machine

/-- The parameter `FONT` (R8, R266; decision D21): any 80 bytes that are 16 glyphs 4 pixels wide (R265). `load` takes it as an
argument. -/
structure Font where
  /-- glyph `d` is bytes `5 * d` to `5 * d + 4`, one byte per row, top row first (R265) -/
  bytes : Vector Byte 80
  /-- bits 3 to 0 of each are 0 (R265) -/
  ok : fontOk bytes = true
  deriving DecidableEq, Repr

/-- Glyphs 0 to 7 of R266. -/
def fontLow : List Byte :=
  [0xF0, 0x90, 0x90, 0x90, 0xF0, 0x20, 0x60, 0x20, 0x20, 0x70,
   0xF0, 0x10, 0xF0, 0x80, 0xF0, 0xF0, 0x10, 0xF0, 0x10, 0xF0,
   0x90, 0x90, 0xF0, 0x10, 0x10, 0xF0, 0x80, 0xF0, 0x10, 0xF0,
   0xF0, 0x80, 0xF0, 0x90, 0xF0, 0xF0, 0x10, 0x20, 0x40, 0x40]

/-- Glyphs 8 to F of R266. -/
def fontHigh : List Byte :=
  [0xF0, 0x90, 0xF0, 0x90, 0xF0, 0xF0, 0x90, 0xF0, 0x10, 0xF0,
   0xF0, 0x90, 0xF0, 0x90, 0x90, 0xE0, 0x90, 0xE0, 0x90, 0xE0,
   0xF0, 0x80, 0x80, 0x80, 0xF0, 0xE0, 0x90, 0x90, 0x90, 0xE0,
   0xF0, 0x80, 0xF0, 0x80, 0xF0, 0xF0, 0x80, 0xF0, 0x80, 0x80]

/-- The default of R266, as a list. -/
def defaultFontBytes : List Byte := fontLow ++ fontHigh

/-- The default of the parameter `FONT` (R266; assumption 5). -/
def defaultFont : Font := ⟨⟨defaultFontBytes.toArray, rfl⟩, by decide⟩

/-- What `load` of an empty program leaves at an address under the default `FONT`: the font at 0x000 to 0x04F, 0x00 elsewhere
(R39, R260). An unlisted address of `Memory` reads as this; under another font `load` lists the bytes that differ
(assumption 3). -/
def Memory.initial (a : Nat) : Byte := defaultFontBytes.getD (a - Config.fontAddr) 0

end Sys2Proof.Machine
end

