-- ==== Sys2Proof/Machine/Ops.lean ====
section
/-! DEFINITION. The named operations over memory, registers, stack, framebuffer and timers (00_scope.md R11), the fetch, and
what a fault is to a step (60_exceptions.md R226, R231). -/

namespace Sys2Proof.Machine

/-- What one step or one arm answers. -/
abbrev StepResult := Host.Outcome State Fault Refusal

/-! ### Memory (20_memory.md) -/

/-- The byte at an address the decoder accepted (R52, R61). -/
def Memory.read : Memory → Nat → Byte
  | [], a => Memory.initial a
  | (c, d) :: m, a => if a = c then d else Memory.read m a

/-- Put one byte, keeping the list sorted and free of cells that read as the initial contents. -/
def Memory.put : Memory → Nat → Byte → Memory
  | [], a, b => if b = Memory.initial a then [] else [(a, b)]
  | (c, d) :: m, a, b =>
    if a < c then (if b = Memory.initial a then (c, d) :: m else (a, b) :: (c, d) :: m)
    else if a = c then (if b = Memory.initial a then m else (a, b) :: m)
    else (c, d) :: Memory.put m a b

/-- Write one byte at an address 0x000 to 0xFFF; no other address exists (R50, R54). -/
def Memory.write (m : Memory) (a : Nat) (b : Byte) : Memory :=
  if a < Config.memSize then Memory.put m a b else m

/-- Write bytes at `a`, `a + 1`, … in that order (R55). -/
def Memory.writeBlock : Memory → Nat → List Byte → Memory
  | m, _, [] => m
  | m, a, b :: bs => Memory.writeBlock (Memory.write m a b) (a + 1) bs

/-- The canonical form from address `lo` on: addresses strictly rising and below 4096, no cell equal to what it reads as
when unlisted. -/
def Memory.wfFrom : Nat → Memory → Bool
  | _, [] => true
  | lo, (a, b) :: m =>
    decide (lo ≤ a) && decide (a < Config.memSize) && decide (b ≠ Memory.initial a) && Memory.wfFrom (a + 1) m

/-- The canonical form of `Memory` (assumption 3). -/
def Memory.wf (m : Memory) : Bool := Memory.wfFrom 0 m

/-- `AddrDecode(a)` (R52): an address above 0xFFF faults, and none is wrapped. -/
def addrDecode (a : Nat) : Except Fault Nat :=
  if a > 0xFFF then .error (.memoryFault a) else .ok a

/-- `MemRead(a, 1)` (R11, R52). -/
def memRead (a : Nat) (s : State) : Except Fault Byte :=
  match addrDecode a with
  | .error f => .error f
  | .ok a' => .ok (Memory.read s.mem a')

/-- Check the addresses `a` to `a + n - 1` before any access: the fault of the lowest one out of range (R59). -/
def checkRange : Nat → Nat → Option Fault
  | _, 0 => none
  | a, n + 1 =>
    match addrDecode a with
    | .error f => some f
    | .ok _ => checkRange (a + 1) n

/-! ### Registers (10_state.md): the named updates of a state -/

/-- `V[x]` (R11, R20). -/
def State.getV (s : State) (x : Reg) : Byte := s.v[x]

/-- `V[x] <- b` (R11, R20). -/
def State.setV (s : State) (x : Reg) (b : Byte) : State := { s with v := s.v.set x b }

/-- Replace the register file. -/
def State.setRegs (s : State) (v : Vector Byte 16) : State := { s with v := v }

/-- `I <- w`, already reduced to 16 bits (R26). -/
def State.setIndex (s : State) (w : Word) : State := { s with index := w }

/-- `DT <- b` (R31). -/
def State.setDT (s : State) (b : Byte) : State := { s with dt := b }

/-- `ST <- b` (R31). -/
def State.setST (s : State) (b : Byte) : State := { s with st := b }

/-- Replace the memory. -/
def State.setMem (s : State) (m : Memory) : State := { s with mem := m }

/-- Replace the framebuffer and set `drawFlag` (R32: by every completed 00E0 and DXYN). -/
def State.draw (s : State) (fb : Framebuffer) : State := { s with fb := fb, drawFlag := true }

/-- Write a result to `V[x]`, then the flag to VF, last (R24). -/
def State.setResultFlag (s : State) (x : Reg) (result flag : Byte) : State :=
  (s.setV x result).setV vf flag

/-- `r <- draw8()`, the random byte of this draw (R145; assumption 1). -/
def State.randomByte (s : State) : Byte := Config.randomByte s.draws

/-- The next draw is another free value (assumption 1). -/
def State.nextDraw (s : State) : State := { s with draws := s.draws + 1 }

/-- The step's outcome, when nothing else of the state changes (R99). -/
def State.report (s : State) (r : Report) : State := { s with outcome := r }

/-- `pc` set by an arm that ran to its end (R95, R99). -/
def State.finish (s : State) (pc : Word) : State := { s with pc := pc, outcome := .completed }

/-- `Stack[sp] <- value`, `sp <- sp + 1` (R110). -/
def State.pushed (s : State) (value : Word) (h : s.sp.val < 16) : State :=
  { s with stack := s.stack.set s.sp.val value, sp := ⟨s.sp.val + 1, by omega⟩ }

/-- `sp <- sp - 1`; the entry keeps its value (R111, R30). -/
def State.popped (s : State) : State := { s with sp := ⟨s.sp.val - 1, by omega⟩ }

/-! ### Raising a fault, and completing an arm -/

/-- `raise f` (R11, R226, R231): the step ends here with the fault as its answer. No state is saved, no mode changes, no
vector is entered and no timer runs; the state stays the one the step began with, which is why the answer carries none.
`State.faulted` is the pair the step returns. -/
def raise (f : Fault) : StepResult := .fault f

/-- What a step that raised `f` leaves of the state it started from: the same state, with the step's two outputs the pair
`(Fault(kind, info), false)` (R90, R99, R226). -/
def State.faulted (s : State) (f : Fault) : State := { s with outcome := .fault f, sound := false }

/-- Run `k` unless a check raised a fault. Every check of an arm comes before its first write (R12). -/
def guarded (check : Option Fault) (k : StepResult) : StepResult :=
  match check with
  | some f => raise f
  | none => k

/-- An arm ends `Completed` with the `pc` it sets itself (R95, R99). -/
def complete (pc : Word) (s : State) : StepResult := .next (s.finish pc)

/-- `pc <- trunc_16(pc + 2)`: the normal advance (R95). -/
def advance (s : State) : StepResult := complete (s.pc + 2) s

/-- A conditional skip: `pc + 4` when taken, `pc + 2` otherwise (R95, R16). -/
def skipIf (c : Bool) (s : State) : StepResult := complete (if c then s.pc + 4 else s.pc + 2) s

/-- An arm ends `Waiting`: no write at all and `pc` unchanged (R204). -/
def wait (s : State) : StepResult := .next (s.report .waiting)

/-! ### The call stack (41_control_flow.md R110, R111) -/

/-- `Push(v)`: the check comes first, so an overflowing push writes nothing (R110). -/
def push (value : Word) (s : State) : Except Fault State :=
  if h : s.sp.val < 16 then .ok (s.pushed value h) else .error (.stackFault .overflow s.pc)

/-- `Stack[sp - 1]`, the top entry; only read when `sp` is not 0 (R29). -/
def topOfStack (s : State) : Word := s.stack[s.sp.val - 1]

/-- `Pop()`: the top entry, and `sp` one less (R111). -/
def pop (s : State) : Except Fault (Word × State) :=
  if s.sp.val = 0 then .error (.stackFault .underflow s.pc) else .ok (topOfStack s, s.popped)

/-! ### The framebuffer (44_display.md) -/

/-- `FB[x, y]`: whether the cell holds 1 (R11, R35). -/
def Framebuffer.cell (fb : Framebuffer) (x y : Nat) : Bool := (fb[y]?.getD 0).getMsbD x

/-- The row that holds 1 in column `x` only. -/
def columnMask (x : Nat) : BitVec 64 := 0x8000000000000000#64 >>> x

/-- `FB[x, y] <- FB[x, y] XOR 1` (R183). -/
def Framebuffer.invert (fb : Framebuffer) (x y : Nat) : Framebuffer :=
  fb.setIfInBounds y (fb[y]?.getD 0 ^^^ columnMask x)

/-- All 2048 cells 0 (R180). -/
def Framebuffer.clear : Framebuffer := Vector.replicate 32 0

/-- The output array the host reads: 2048 bytes, byte `y * 64 + x` the cell in column `x` and row `y` (R35, R185). -/
def Framebuffer.bytes (fb : Framebuffer) : List Byte :=
  (List.range Config.fbHeight).flatMap fun y =>
    (List.range Config.fbWidth).map fun x => if Framebuffer.cell fb x y then 1 else 0

/-! ### Fetch (20_memory.md R56, 40_step_cycle.md R91) -/

/-- `Fetch()`: the big-endian word at `pc`; both addresses are checked, `pc` first (R56). -/
def fetch (s : State) : Except Fault Word :=
  match memRead s.pc.toNat s, memRead (s.pc.toNat + 1) s with
  | .error f, _ => .error f
  | .ok _, .error f => .error f
  | .ok hi, .ok lo => .ok (joinBytes hi lo)

/-- Store a word where `fetch` reads the next one (R55, R56). -/
def storeWordAtPc (s : State) (w : Word) : State :=
  s.setMem (Memory.writeBlock s.mem s.pc.toNat (wordBytes w))

/-! ### The timer phase (60_exceptions.md R236) -/

/-- A timer at 0 stays 0 (R236). -/
def countDown (t : Byte) : Byte := if t = 0 then 0 else t - 1

/-- `TimerPhase()`: both timers count down; the sound trigger is true exactly when `ST` went from 1 to 0 (R236, R240). -/
def timerPhase (s : State) : State :=
  { s with dt := countDown s.dt, st := countDown s.st, sound := decide (s.st = 1) }

/-- Phase 4 of a step: the timer phase after a completed, waiting or unknown word; none after a fault (R90, R97, R226). -/
def afterArm : StepResult → StepResult
  | .next s => .next (timerPhase s)
  | .fault f => .fault f
  | .refused r => .refused r

/-- The default arm of the dispatcher: an unknown word changes nothing but the timers, and `pc` stays (R80, R93, R98). -/
def unknownArm (w : Word) (s : State) : StepResult := .next (s.report (.unknown w))

end Sys2Proof.Machine
end

