-- ==== Sys2Proof/Machine/Operands.lean ====
section
/-! DEFINITION. How an operand of an instruction word becomes a value, an address, a register block, a key or a set of
pixels (30_encoding.md R73, 43_index_memory.md, 44_display.md R181, 45_keys_timers.md R200). -/

namespace Sys2Proof.Machine

/-- `zext_16(NNN)` (R73). -/
def addrOperand (nnn : Addr12) : Word := nnn.setWidth 16

/-- `trunc_16(NNN + V[0])`, not masked to 12 bits (R119). -/
def computedTarget (nnn : Addr12) (s : State) : Word :=
  BitVec.ofNat 16 (nnn.toNat + (s.getV 0).toNat)

/-- The address of element `k` of a transfer through `I`: `I + k`, an unbounded integer (R52, R53). -/
def indexAddr (s : State) (k : Nat) : Nat := s.index.toNat + k

/-- `I + V[X]` as an unbounded integer (R161). -/
def indexSum (s : State) (x : Reg) : Nat := s.index.toNat + (s.getV x).toNat

/-- The address of the glyph of a digit, neither masked nor checked (R162). -/
def glyphAddr (digit : Byte) : Word :=
  BitVec.ofNat 16 (Config.fontAddr + digit.toNat * Config.fontGlyphBytes)

/-- Hundreds, tens and ones (R163). -/
def bcdDigits (b : Byte) : List Byte :=
  [BitVec.ofNat 8 (b.toNat / 100), BitVec.ofNat 8 (b.toNat / 10 % 10), BitVec.ofNat 8 (b.toNat % 10)]

/-- The bytes `V[0]` to `V[X]` in order (R164). -/
def regBlock (s : State) (x : Reg) : List Byte := s.v.toList.take (x.val + 1)

/-- `V[k] <- MemRead(a + k, 1)` for `k` = 0 to `n - 1` (R165). -/
def loadRegs (m : Memory) (a : Nat) : Nat → Vector Byte 16 → Vector Byte 16
  | 0, v => v
  | n + 1, v => (loadRegs m a n v).setIfInBounds n (Memory.read m (a + n))

/-- The set pixels of one sprite row, left to right: bit `7 - c` is the pixel in column `x0 + c` (R181). -/
def rowPixels (x0 y : Nat) (b : Byte) : List (Nat × Nat) :=
  ((List.range 8).filter fun c => b.getLsbD (7 - c)).map fun c => (x0 + c, y)

/-- The set pixels (column, row) of an `n`-row sprite at `(x0, y0)`, top row first: row `r` is the byte at `a + r` (R181). -/
def spritePixels (m : Memory) (a x0 y0 n : Nat) : List (Nat × Nat) :=
  (List.range n).flatMap fun r => rowPixels x0 (y0 + r) (Memory.read m (a + r))

/-- A pixel outside the 64 x 32 grid (R182). -/
def offGrid (p : Nat × Nat) : Bool := decide (p.1 > 63) || decide (p.2 > 31)

/-- The fault of the first off-grid set pixel, if there is one (R182, R224). -/
def checkPixels (ps : List (Nat × Nat)) : Option Fault :=
  match ps.find? offGrid with
  | some p => some (.displayFault p.1 p.2)
  | none => none

/-- `KeyPressed(k)` (R200): a key number above 0xF faults; a key is pressed when its byte is nonzero. -/
def keyPressed (k : Byte) (s : State) : Except Fault Bool :=
  if h : k.toNat < 16 then .ok (decide (s.keys[k.toNat] ≠ 0)) else .error (.keyFault k)

/-- The smallest pressed key, if any (R203). -/
def firstKey (s : State) : Option Nat := s.keys.toList.findIdx? (fun b => decide (b ≠ 0))

end Sys2Proof.Machine
end

