-- ==== Sys2Proof/Machine/Flags.lean ====
section
/-! DEFINITION. The values VF receives (10_state.md R23, 42_alu.md R128): each flag is computed from the operand values at
the start of the instruction (R24). -/

namespace Sys2Proof.Machine

/-- A flag is 0 or 1 (R23). -/
def flag (b : Bool) : Byte := if b then 1 else 0

/-- 8XY4: the unbounded sum exceeds 255 (R128, R136). -/
def carryFlag (x y : Byte) : Byte := flag (decide (x.toNat + y.toNat > 255))

/-- 8XY5 and 8XY7: no borrow, the minuend is at least the subtrahend (R128, R137, R139). -/
def noBorrowFlag (minuend subtrahend : Byte) : Byte := flag (decide (minuend.toNat ≥ subtrahend.toNat))

/-- 8XY6: bit 0, shifted out (R128, R138). -/
def shiftedOutRight (x : Byte) : Byte := flag (x.getLsbD 0)

/-- 8XYE: bit 7, shifted out (R128, R140). -/
def shiftedOutLeft (x : Byte) : Byte := flag (x.getLsbD 7)

/-- FX1E: the sum passes 0xFFF (R161). -/
def indexOverflowFlag (sum : Nat) : Byte := flag (decide (sum > 0xFFF))

/-- Invert the cells of the pixels in order; the second part is whether one of them held 1 (R183). -/
def blit : List (Nat × Nat) → Framebuffer → Framebuffer × Bool
  | [], fb => (fb, false)
  | p :: ps, fb =>
    let rest := blit ps (Framebuffer.invert fb p.1 p.2)
    (rest.1, Framebuffer.cell fb p.1 p.2 || rest.2)

end Sys2Proof.Machine
end

