-- ==== Sys2Proof/Machine/Alu.lean ====
section
/-! DEFINITION. Register arithmetic, logic and the random byte (42_alu.md). -/

namespace Sys2Proof.Machine

/-- 6XNN (R130). -/
def execLdVxNN (x : Reg) (nn : Byte) (s : State) : StepResult := advance (s.setV x nn)

/-- 7XNN (R131): wraps, and writes no flag. -/
def execAddVxNN (x : Reg) (nn : Byte) (s : State) : StepResult := advance (s.setV x (s.getV x + nn))

/-- 8XY0 (R132). -/
def execLdVxVy (x y : Reg) (s : State) : StepResult := advance (s.setV x (s.getV y))

/-- 8XY1 (R133). -/
def execOrVxVy (x y : Reg) (s : State) : StepResult := advance (s.setV x (s.getV x ||| s.getV y))

/-- 8XY2 (R134). -/
def execAndVxVy (x y : Reg) (s : State) : StepResult := advance (s.setV x (s.getV x &&& s.getV y))

/-- 8XY3 (R135). -/
def execXorVxVy (x y : Reg) (s : State) : StepResult := advance (s.setV x (s.getV x ^^^ s.getV y))

/-- 8XY4 (R136). -/
def execAddVxVy (x y : Reg) (s : State) : StepResult :=
  advance (s.setResultFlag x (s.getV x + s.getV y) (carryFlag (s.getV x) (s.getV y)))

/-- 8XY5 (R137). -/
def execSubVxVy (x y : Reg) (s : State) : StepResult :=
  advance (s.setResultFlag x (s.getV x - s.getV y) (noBorrowFlag (s.getV x) (s.getV y)))

/-- 8XY6 (R138): `Y` is decoded and not read (R129). -/
def execShrVx (x _y : Reg) (s : State) : StepResult :=
  advance (s.setResultFlag x (s.getV x >>> 1) (shiftedOutRight (s.getV x)))

/-- 8XY7 (R139). -/
def execSubnVxVy (x y : Reg) (s : State) : StepResult :=
  advance (s.setResultFlag x (s.getV y - s.getV x) (noBorrowFlag (s.getV y) (s.getV x)))

/-- 8XYE (R140): `Y` is decoded and not read (R129). -/
def execShlVx (x _y : Reg) (s : State) : StepResult :=
  advance (s.setResultFlag x (s.getV x <<< 1) (shiftedOutLeft (s.getV x)))

/-- CXNN on a random byte `r` (R145). -/
def rndWith (r : Byte) (x : Reg) (nn : Byte) (s : State) : StepResult := advance (s.nextDraw.setV x (r &&& nn))

/-- CXNN (R145): `r` is the free value of this draw (assumption 1). -/
def execRndVxNN (x : Reg) (nn : Byte) (s : State) : StepResult := rndWith s.randomByte x nn s

end Sys2Proof.Machine
end

