-- ==== Sys2Proof/Machine/Control.lean ====
section
/-! DEFINITION. Control flow: returns, jumps, calls and skips (41_control_flow.md). -/

namespace Sys2Proof.Machine

/-- 00EE (R112): the popped value is the address of the call, so `pc` is 2 past it. -/
def execRet (s : State) : StepResult :=
  match pop s with
  | .error f => raise f
  | .ok (a, t) => complete (a + 2) t

/-- 1NNN (R113). -/
def execJp (nnn : Addr12) (s : State) : StepResult := complete (addrOperand nnn) s

/-- 2NNN (R114): the pushed value is the address of this instruction. -/
def execCall (nnn : Addr12) (s : State) : StepResult :=
  match push s.pc s with
  | .error f => raise f
  | .ok t => complete (addrOperand nnn) t

/-- 3XNN (R115). -/
def execSeVxNN (x : Reg) (nn : Byte) (s : State) : StepResult := skipIf (decide (s.getV x = nn)) s

/-- 4XNN (R116). -/
def execSneVxNN (x : Reg) (nn : Byte) (s : State) : StepResult := skipIf (decide (s.getV x ≠ nn)) s

/-- 5XY0 (R117). -/
def execSeVxVy (x y : Reg) (s : State) : StepResult := skipIf (decide (s.getV x = s.getV y)) s

/-- 9XY0 (R118). -/
def execSneVxVy (x y : Reg) (s : State) : StepResult := skipIf (decide (s.getV x ≠ s.getV y)) s

/-- BNNN (R119). -/
def execJpV0 (nnn : Addr12) (s : State) : StepResult := complete (computedTarget nnn s) s

end Sys2Proof.Machine
end

