-- ==== Sys2Proof/Machine/Display.lean ====
section
/-! DEFINITION. The framebuffer instructions (44_display.md). -/

namespace Sys2Proof.Machine

/-- 00E0 (R180): `drawFlag` is set even when nothing changes. -/
def execCls (s : State) : StepResult := advance (s.draw Framebuffer.clear)

/-- The set pixels of DXYN, its coordinates read before VF is written (R181, R183). -/
def drwPixels (x y : Reg) (n : Nat) (s : State) : List (Nat × Nat) :=
  spritePixels s.mem (indexAddr s 0) (s.getV x).toNat (s.getV y).toNat n

/-- The writes of DXYN: the blit, then the collision to VF (R183). -/
def blitState (ps : List (Nat × Nat)) (s : State) : State :=
  (s.draw (blit ps s.fb).1).setV vf (flag (blit ps s.fb).2)

/-- DXYN (R183): memory is checked before the grid (R229), and both before any write. -/
def execDrw (x y : Reg) (n : Nat) (s : State) : StepResult :=
  guarded (checkRange (indexAddr s 0) n)
    (guarded (checkPixels (drwPixels x y n s)) (advance (blitState (drwPixels x y n s) s)))

end Sys2Proof.Machine
end

