-- ==== Sys2Proof/Machine/IndexMemory.lean ====
section
/-! DEFINITION. The index register and the memory transfers (43_index_memory.md). -/

namespace Sys2Proof.Machine

/-- ANNN (R160). -/
def execLdINNN (nnn : Addr12) (s : State) : StepResult := advance (s.setIndex (addrOperand nnn))

/-- FX1E (R161): VF is written last, from the old operands. -/
def execAddIVx (x : Reg) (s : State) : StepResult :=
  advance ((s.setIndex (BitVec.ofNat 16 (indexSum s x))).setV vf (indexOverflowFlag (indexSum s x)))

/-- FX29 (R162). -/
def execLdFVx (x : Reg) (s : State) : StepResult := advance (s.setIndex (glyphAddr (s.getV x)))

/-- FX33 (R163): all three addresses are checked first. -/
def execLdBVx (x : Reg) (s : State) : StepResult :=
  guarded (checkRange (indexAddr s 0) 3)
    (advance (s.setMem (Memory.writeBlock s.mem (indexAddr s 0) (bcdDigits (s.getV x)))))

/-- FX55 (R164): all `X + 1` addresses are checked first; `I` ends one past the last byte. -/
def execLdMemVx (x : Reg) (s : State) : StepResult :=
  guarded (checkRange (indexAddr s 0) (x.val + 1))
    (advance ((s.setMem (Memory.writeBlock s.mem (indexAddr s 0) (regBlock s x))).setIndex
      (BitVec.ofNat 16 (indexAddr s (x.val + 1)))))

/-- FX65 (R165): all `X + 1` addresses are checked first; `I` ends one past the last byte. -/
def execLdVxMem (x : Reg) (s : State) : StepResult :=
  guarded (checkRange (indexAddr s 0) (x.val + 1))
    (advance ((s.setRegs (loadRegs s.mem (indexAddr s 0) (x.val + 1) s.v)).setIndex
      (BitVec.ofNat 16 (indexAddr s (x.val + 1)))))

end Sys2Proof.Machine
end

