-- ==== Sys2Proof/Machine/KeysTimers.lean ====
section
/-! DEFINITION. The key queries and the timer transfers (45_keys_timers.md). -/

namespace Sys2Proof.Machine

/-- EX9E (R201). -/
def execSkp (x : Reg) (s : State) : StepResult :=
  match keyPressed (s.getV x) s with
  | .error f => raise f
  | .ok pressed => skipIf pressed s

/-- EXA1 (R202). -/
def execSknp (x : Reg) (s : State) : StepResult :=
  match keyPressed (s.getV x) s with
  | .error f => raise f
  | .ok pressed => skipIf (!pressed) s

/-- FX0A (R203, R204): the smallest pressed key, or `Waiting` with no write. -/
def execLdVxK (x : Reg) (s : State) : StepResult :=
  match firstKey s with
  | some k => advance (s.setV x (BitVec.ofNat 8 k))
  | none => wait s

/-- FX07 (R205): the value before this step's timer phase. -/
def execLdVxDT (x : Reg) (s : State) : StepResult := advance (s.setV x s.dt)

/-- FX15 (R206). -/
def execLdDTVx (x : Reg) (s : State) : StepResult := advance (s.setDT (s.getV x))

/-- FX18 (R207). -/
def execLdSTVx (x : Reg) (s : State) : StepResult := advance (s.setST (s.getV x))

end Sys2Proof.Machine
end

