-- ==== Sys2Proof/Machine/Step.lean ====
section
/-! DEFINITION. One step: fetch, decode, one arm, the timer phase (40_step_cycle.md R90). -/

namespace Sys2Proof.Machine

/-- `step()` (R90): a fault of phase 1 or 3 ends the step; otherwise the timer phase runs once (R97). What the host gets
of either, the pair `(outcome, sound)` and the state, is `settleStep`. -/
def step (s : State) : Host.Outcome State Fault Refusal :=
  match fetch s with
  | .error f => raise f
  | .ok w =>
    match decode w with
    | .unknown u => afterArm (unknownArm u s)
    | .instr i => afterArm (exec i s)

/-- `s` with the word whose low `nbits` bits are `w`'s stored at `pc`, where `step` fetches next (assumption 11). -/
def State.withFetchWord (s : State) (nbits w : Nat) : State :=
  storeWordAtPc s (BitVec.ofNat 16 (w % 2 ^ nbits))

end Sys2Proof.Machine
end

