-- ==== Sys2Proof/Machine/Transactions.lean ====
section
/-! DEFINITION. The host interface: `load`, `step`, `setKey`, `consumeDraw` and reads, each one indivisible move of the host
(70_reset_and_hazards.md R260, R281 to R286). -/

namespace Sys2Proof.Machine

/-- The cells of bytes placed at `a`, in canonical form: those that differ from `Memory.initial`. -/
def placedCells : Nat → List Byte → Memory
  | _, [] => []
  | a, b :: bs => if b = Memory.initial a then placedCells (a + 1) bs else (a, b) :: placedCells (a + 1) bs

/-- The memory `load` leaves (R260): `FONT` at 0x000, the program at 0x200, 0x00 elsewhere. -/
def loadedMemory (font : Font) (rom : List Byte) : Memory :=
  placedCells Config.fontAddr font.bytes.toList ++ placedCells Config.loadAddr rom

/-- The state a successful `load(rom)` leaves, whatever the state before it (R39, R260, R261). -/
def loadedState (font : Font) (rom : List Byte) : State := State.reset.setMem (loadedMemory font rom)

/-- The reset state of an engine whose parameter `FONT` is `font` (R39, R266). -/
def State.resetWith (font : Font) : State := loadedState font []

/-- `load(rom)` on an engine whose parameter `FONT` is `font` (R260, R266): reset and boot, or `RomTooLarge` with no state
change (R227). The state before is not read; only the model's own draw counter goes on from it, so that no draw is answered
twice (assumption 1). -/
def load (font : Font) (rom : List Byte) (s : State) : StepResult :=
  if romOk rom then .next { loadedState font rom with draws := s.draws } else raise (.romTooLarge rom.length)

/-- `setKey(k, v)`; a number outside 0x0 to 0xF is no transaction (R284). -/
def setKey (k : Fin 16) (b : Byte) (s : State) : State := { s with keys := s.keys.set k b }

/-- `consumeDraw()` (R283). -/
def consumeDraw (s : State) : State := { s with drawFlag := false }

/-- What the host can send (R281). -/
inductive Transaction where
  | load (rom : List Byte)
  | step
  | setKey (k : Fin 16) (b : Byte)
  | consumeDraw
  | read
  deriving DecidableEq, Repr

/-- What the engine returns (R281). -/
inductive Reply where
  /-- `load` returned `Loaded` or `RomTooLarge(len)` (R227, R260) -/
  | loadReturned (outcome : Report)
  /-- `step` returned `(outcome, sound)` (R99) -/
  | stepped (outcome : Report) (sound : Bool)
  /-- the model has no meaning for the instruction; no arm of this model answers so -/
  | refused (r : Refusal)
  | nothing
  /-- a read returns any state; `Framebuffer.bytes` is the array of R35 -/
  | observed (s : State)
  deriving DecidableEq, Repr

/-- The state and the pair `(outcome, sound)` that a call of `step` from `s` gives the host: after a fault the state it
started from and `(Fault(kind, info), false)` (R90, R99, R226). -/
def settleStep (s : State) : StepResult → State × Reply
  | .next t => (t, .stepped t.outcome t.sound)
  | .fault f => (s.faulted f, .stepped (.fault f) false)
  | .refused r => (s, .refused r)

/-- The state and the outcome that a call of `load` from `s` gives the host: after a fault the state from before the call,
nothing of it changed (R227). -/
def settleLoad (s : State) : StepResult → State × Reply
  | .next t => (t, .loadReturned t.outcome)
  | .fault f => (s, .loadReturned (.fault f))
  | .refused r => (s, .refused r)

/-- One transaction of the host with an engine whose parameter `FONT` is `font` (R281, R282). Only `load` reads the
parameter. -/
def transact (font : Font) (t : Transaction) (s : State) : State × Reply :=
  match t with
  | .load rom => settleLoad s (load font rom s)
  | .step => settleStep s (step s)
  | .setKey k b => (setKey k b s, .nothing)
  | .consumeDraw => (consumeDraw s, .nothing)
  | .read => (s, .observed s)

/-- A sequence of transactions, in the host's order (R281). -/
def transactAll (font : Font) : List Transaction → State → State
  | [], s => s
  | t :: ts, s => transactAll font ts (transact font t s).1

/-- One rendered frame: `STEPS_PER_FRAME` steps (R285). -/
def frame (font : Font) (s : State) : State := transactAll font (List.replicate Config.stepsPerFrame .step) s

/-- The number R228 gives a fault. -/
def Fault.code : Fault → Nat
  | .memoryFault _ => 3
  | .stackFault _ _ => 4
  | .displayFault _ _ => 5
  | .keyFault _ => 6
  | .romTooLarge _ => 7

/-- The number R228 gives an outcome. -/
def Report.code : Report → Nat
  | .completed => 0
  | .waiting => 1
  | .unknown _ => 2
  | .fault f => f.code
  | .loaded => 8

end Sys2Proof.Machine
end

