-- ==== Sys2Proof/Safety.lean ====
section
/-! DEFINITION. What claims call a sound state, a safe step and a safe run, and the terms their frames are stated in. -/

namespace Sys2Proof.Machine

/-- The invariant of the engine: memory is canonical (assumption 3), `pc` never exceeds 0x10FE and no stack entry exceeds
0xFFE (10_state.md R28). -/
structure State.Inv (s : State) : Prop where
  mem : Memory.wf s.mem = true
  pc : s.pc.toNat ≤ 0x10FE
  stack : ∀ j : Fin 16, s.stack[j].toNat ≤ 0xFFE

/-- A step is safe when it ends in a next state: no fault (R226). -/
def SafeStep (s : State) : Prop := ∃ t, step s = .next t

/-- A run of `k` steps from `s` is safe when none of them faults. -/
def SafeRun (k : Nat) (s : State) : Prop := ∃ t, Sys2Proof.core.run k s = .next t

/-! ### Frames -/

/-- The parts of a state besides the register file, `pc` and the outcome. -/
inductive Part where
  | index | sp | stack | dt | st | drawFlag | keys | fb | mem | sound | draws
  deriving DecidableEq, Repr

/-- A part reads in `t` as it reads in `s`: memory byte by byte, the framebuffer cell by cell. -/
def Part.same : Part → State → State → Prop
  | .index, s, t => t.index = s.index
  | .sp, s, t => t.sp = s.sp
  | .stack, s, t => t.stack = s.stack
  | .dt, s, t => t.dt = s.dt
  | .st, s, t => t.st = s.st
  | .drawFlag, s, t => t.drawFlag = s.drawFlag
  | .keys, s, t => t.keys = s.keys
  | .fb, s, t => ∀ x y, Framebuffer.cell t.fb x y = Framebuffer.cell s.fb x y
  | .mem, s, t => ∀ a, Memory.read t.mem a = Memory.read s.mem a
  | .sound, s, t => t.sound = s.sound
  | .draws, s, t => t.draws = s.draws

/-- Every register but the listed ones, and every part but the listed ones, is unchanged. -/
structure KeepsExcept (regs : List Reg) (parts : List Part) (s t : State) : Prop where
  regs : ∀ k, k ∉ regs → t.getV k = s.getV k
  parts : ∀ p, p ∉ parts → p.same s t

/-- The registers an instruction writes (10_state.md R22). -/
def regsWritten : Instr → List Reg
  | .ldVxNN x _ | .addVxNN x _ | .ldVxVy x _ | .orVxVy x _ | .andVxVy x _ | .xorVxVy x _ => [x]
  | .rndVxNN x _ | .ldVxDT x | .ldVxK x => [x]
  | .addVxVy x _ | .subVxVy x _ | .shrVx x _ | .subnVxVy x _ | .shlVx x _ => [x, vf]
  | .drw _ _ _ | .addIVx _ => [vf]
  | .ldVxMem x => (List.finRange 16).filter fun k => decide (k ≤ x)
  | .cls | .ret | .jp _ | .call _ | .seVxNN _ _ | .sneVxNN _ _ | .seVxVy _ _ | .sneVxVy _ _ => []
  | .ldINNN _ | .jpV0 _ | .skp _ | .sknp _ | .ldDTVx _ | .ldSTVx _ | .ldFVx _ | .ldBVx _ | .ldMemVx _ => []

/-- The other parts an instruction writes (10_state.md R26 to R36). -/
def partsWritten : Instr → List Part
  | .cls | .drw _ _ _ => [.fb, .drawFlag]
  | .ret => [.sp]
  | .call _ => [.sp, .stack]
  | .ldINNN _ | .addIVx _ | .ldFVx _ | .ldVxMem _ => [.index]
  | .ldBVx _ => [.mem]
  | .ldMemVx _ => [.mem, .index]
  | .ldDTVx _ => [.dt]
  | .ldSTVx _ => [.st]
  | .rndVxNN _ _ => [.draws]
  | .jp _ | .seVxNN _ _ | .sneVxNN _ _ | .seVxVy _ _ | .sneVxVy _ _ | .jpV0 _ | .skp _ | .sknp _ => []
  | .ldVxNN _ _ | .addVxNN _ _ | .ldVxVy _ _ | .orVxVy _ _ | .andVxVy _ _ | .xorVxVy _ _ => []
  | .addVxVy _ _ | .subVxVy _ _ | .shrVx _ _ | .subnVxVy _ _ | .shlVx _ _ | .ldVxDT _ | .ldVxK _ => []

/-! ### Sprites and completion -/

/-- Cell (`column`, `row`) is under a set pixel of the sprite that DXYN draws from `s` (44_display.md R181). -/
def SetPixel (s : State) (x y : Reg) (n column row : Nat) : Prop :=
  ∃ r c, r < n ∧ c < 8 ∧ (Memory.read s.mem (s.index.toNat + r)).getLsbD (7 - c) = true ∧
    column = (s.getV x).toNat + c ∧ row = (s.getV y).toNat + r

/-- When an instruction runs to its end or waits: the negation of the faults of R222 to R225. -/
def CanRun (i : Instr) (s : State) : Prop :=
  match i with
  | .ret => s.sp.val ≠ 0
  | .call _ => s.sp.val ≠ 16
  | .skp x | .sknp x => (s.getV x).toNat ≤ 0xF
  | .ldBVx _ => s.index.toNat + 2 ≤ 0xFFF
  | .ldMemVx x | .ldVxMem x => s.index.toNat + x.val ≤ 0xFFF
  | .drw x y n => (n = 0 ∨ s.index.toNat + n ≤ 0x1000) ∧
      ∀ column row, SetPixel s x y n column row → column ≤ 63 ∧ row ≤ 31
  | .cls | .jp _ | .seVxNN _ _ | .sneVxNN _ _ | .seVxVy _ _ | .sneVxVy _ _ | .jpV0 _ => True
  | .ldVxNN _ _ | .addVxNN _ _ | .ldVxVy _ _ | .orVxVy _ _ | .andVxVy _ _ | .xorVxVy _ _ => True
  | .addVxVy _ _ | .subVxVy _ _ | .shrVx _ _ | .subnVxVy _ _ | .shlVx _ _ | .rndVxNN _ _ => True
  | .ldINNN _ | .addIVx _ | .ldFVx _ | .ldVxDT _ | .ldDTVx _ | .ldSTVx _ | .ldVxK _ => True

/-- How many bytes of memory from `I` on an instruction accesses (R53). -/
def accessLength : Instr → Nat
  | .drw _ _ n => n
  | .ldBVx _ => 3
  | .ldMemVx x | .ldVxMem x => x.val + 1
  | .cls | .ret | .jp _ | .call _ | .seVxNN _ _ | .sneVxNN _ _ | .seVxVy _ _ | .sneVxVy _ _ | .jpV0 _ => 0
  | .ldVxNN _ _ | .addVxNN _ _ | .ldVxVy _ _ | .orVxVy _ _ | .andVxVy _ _ | .xorVxVy _ _ => 0
  | .addVxVy _ _ | .subVxVy _ _ | .shrVx _ _ | .subnVxVy _ _ | .shlVx _ _ | .rndVxNN _ _ => 0
  | .ldINNN _ | .addIVx _ | .ldFVx _ | .skp _ | .sknp _ | .ldVxDT _ | .ldDTVx _ | .ldSTVx _ | .ldVxK _ => 0

/-! ### Decoding -/

/-- Every word that selects the row `mask`, `m` decodes to `f` of the word (30_encoding.md R74). -/
def Encodes (mask m : Word) (f : Word → Instr) : Prop := ∀ w : Word, w &&& mask = m → decode w = .instr (f w)

/-- The bits of its word that an instruction keeps: all but the ones the decoder ignores (30_encoding.md R76, R77). -/
def keptBits : Instr → Word
  | .cls | .ret => 0xF0FF
  | .seVxVy _ _ | .sneVxVy _ _ => 0xFFF0
  | .jp _ | .call _ | .seVxNN _ _ | .sneVxNN _ _ | .jpV0 _ | .ldINNN _ => 0xFFFF
  | .ldVxNN _ _ | .addVxNN _ _ | .ldVxVy _ _ | .orVxVy _ _ | .andVxVy _ _ | .xorVxVy _ _ => 0xFFFF
  | .addVxVy _ _ | .subVxVy _ _ | .shrVx _ _ | .subnVxVy _ _ | .shlVx _ _ | .rndVxNN _ _ => 0xFFFF
  | .drw _ _ _ | .skp _ | .sknp _ | .ldVxDT _ | .ldDTVx _ | .ldSTVx _ | .ldVxK _ => 0xFFFF
  | .addIVx _ | .ldFVx _ | .ldBVx _ | .ldMemVx _ | .ldVxMem _ => 0xFFFF

/-- The word at `pc`, when both of its bytes exist, decodes to `i` (R56, R75). -/
def RunsAt (s : State) (i : Instr) : Prop := ∃ w, fetch s = .ok w ∧ decode w = .instr i

/-- A bad target faults at the next fetch and not before (41_control_flow.md R113, R121): at a `pc` past 0xFFE the step is a
memory fault, that of address 0x1000 when `pc` is 0xFFF and of `pc` otherwise (20_memory.md R56). -/
def BadTargetFaultsNext (t : State) : Prop :=
  0xFFE < t.pc.toNat → step t = .fault (.memoryFault (max t.pc.toNat 0x1000))

/-- The same answer, with a change made to its next state. -/
def onNext (f : State → State) : StepResult → StepResult
  | .next t => .next (f t)
  | .fault r => .fault r
  | .refused r => .refused r

end Sys2Proof.Machine
end

