-- ==== Sys2Proof/Certificates/Slice0/Obligations.lean ====
section
/-! DEFINITION. The statements for the provers. Each docstring names the rule of spec/ it formalises; a statement whose rule
the spec marks as its own decision, its derivation or general knowledge says so and is listed as derived. -/

open Sys2Proof Sys2Proof.Machine

/-! ### Encoding and decoding -/

/-- Decoding the encoded word, or the encoded bytes, of a well-formed instruction gives it back (30_encoding.md R71 to R83). -/
def Obligations.DecodeEncodeRoundTrip : Prop :=
  ∀ i : Instr, i.wf = true → decode (encode i) = .instr i ∧ decodeBytes (encodeBytes i) = .word (.instr i) []

/-- R71: the fields of an instruction word, as numbers. -/
def Obligations.FieldsCutFromWord : Prop :=
  ∀ w : Word, fieldOp w = w.toNat / 4096 ∧ (fieldX w).val = w.toNat / 256 % 16 ∧ (fieldY w).val = w.toNat / 16 % 16 ∧
    fieldN w = w.toNat % 16 ∧ (fieldNN w).toNat = w.toNat % 256 ∧ (fieldNNN w).toNat = w.toNat % 4096

/-- The decoder and the table of masks and matches agree on every word, and a word selects at most one row (R74, R75, R78,
R79: the row values are in part the spec's general knowledge, R78 and R79 its derivation). -/
def Obligations.DecoderFollowsOpcodeTable : Prop :=
  ∀ w : Word,
    (∀ i, decode w = .instr i →
      i.wf = true ∧ ∃ r, opcodeTable[rowIndex i]? = some r ∧ r.selects w = true) ∧
    (∀ u, decode w = .unknown u → u = w ∧ ∀ r ∈ opcodeTable, r.selects w = false) ∧
    (opcodeTable.filter fun r => r.selects w).length ≤ 1

/-- Encoding a decoded word gives the word back but for the bits the decoder ignores (R76, R77: decision D4). -/
def Obligations.EncodeInvertsDecode : Prop :=
  ∀ (w : Word) (i : Instr), decode w = .instr i → encode i = w &&& keptBits i

/-- Words written out from the spec's examples and patterns decode to the instructions they stand for. That 0x0FEE is a RET,
bits 11-8 ignored, is decision D4 (R76; assumption 14); that 0x0000 and 0x8128 are unknown is the spec's derivation (R79). -/
def Obligations.SpelledWordsDecode : Prop :=
  decode 0x00E0 = .instr .cls ∧ decode 0x0FEE = .instr .ret ∧ decode 0x1234 = .instr (.jp 0x234) ∧
    decode 0x322A = .instr (.seVxNN 2 0x2A) ∧ decode 0x6A42 = .instr (.ldVxNN 0xA 0x42) ∧
    decode 0x8344 = .instr (.addVxVy 3 4) ∧ decode 0xA2F0 = .instr (.ldINNN 0x2F0) ∧
    decode 0xD015 = .instr (.drw 0 1 5) ∧ decode 0xE59E = .instr (.skp 5) ∧ decode 0xF255 = .instr (.ldMemVx 2) ∧
    decode 0x0000 = .unknown 0x0000 ∧ decode 0x8128 = .unknown 0x8128

/-! ### The step -/

/-- When the two bytes at `pc` decode to `i`, the step is `exec i` followed by the timer phase, or `exec i`'s fault
(R90, R94, R97). -/
def Obligations.StepRunsDecodedInstruction : Prop :=
  ∀ (s : State) (i : Instr), s.pc.toNat ≤ 0xFFE →
    decode (joinBytes (Memory.read s.mem s.pc.toNat) (Memory.read s.mem (s.pc.toNat + 1))) = .instr i →
    (∀ u, exec i s = .next u → ∃ t, step s = .next t ∧
      t.dt = (if u.dt = 0 then 0 else u.dt - 1) ∧ t.st = (if u.st = 0 then 0 else u.st - 1) ∧
      (t.sound = true ↔ u.st = 1) ∧ t.pc = u.pc ∧ t.outcome = u.outcome ∧ KeepsExcept [] [.dt, .st, .sound] u t) ∧
    (∀ f, exec i s = .fault f → step s = .fault f)

/-- R91: the fetch reads the big-endian word at `pc` (its answer carries no state, so it changes none); a `pc` of 0xFFF or
above is a memory fault of the fetch, and so of the step, before any decode. -/
def Obligations.FetchReadsBigEndianWord : Prop :=
  ∀ s : State,
    (s.pc.toNat ≤ 0xFFE → fetch s = .ok (BitVec.ofNat 16
      (256 * (Memory.read s.mem s.pc.toNat).toNat + (Memory.read s.mem (s.pc.toNat + 1)).toNat))) ∧
    (0xFFF ≤ s.pc.toNat → fetch s = .error (.memoryFault (max s.pc.toNat 0x1000)) ∧
      step s = .fault (.memoryFault (max s.pc.toNat 0x1000)))

/-- A word that selects no row is reported, and its step changes nothing but the timers (R221, R80, R98). That `pc` is
unchanged is the spec's own decision D6 (assumptions 15 and 17). -/
def Obligations.UnknownWordOnlyTicksTimers : Prop :=
  ∀ (s : State) (w : Word), s.pc.toNat ≤ 0xFFE →
    w = joinBytes (Memory.read s.mem s.pc.toNat) (Memory.read s.mem (s.pc.toNat + 1)) →
    (∀ r ∈ opcodeTable, r.selects w = false) →
    ∃ t, step s = .next t ∧ t.outcome = .unknown w ∧ t.pc = s.pc ∧
      t.dt = (if s.dt = 0 then 0 else s.dt - 1) ∧ t.st = (if s.st = 0 then 0 else s.st - 1) ∧
      (t.sound = true ↔ s.st = 1) ∧ KeepsExcept [] [.dt, .st, .sound] s t

/-- Every step that ends in a state ran the timer phase once, after its arm, and a faulted step ran none (R236). That a
faulted step changes nothing is the spec's own decision D2 (R226; assumption 6), and that its two outputs are recorded in the
state is the model's choice, assumption 2. -/
def Obligations.TimerPhaseOncePerStep : Prop :=
  ∀ s : State,
    (∀ t, step s = .next t → ∃ u,
      ((∃ w, fetch s = .ok w ∧ decode w = .unknown w ∧ u = s.report (.unknown w)) ∨
        (∃ i, RunsAt s i ∧ exec i s = .next u)) ∧
      (u.dt ≠ 0 → t.dt = u.dt - 1) ∧ (u.dt = 0 → t.dt = 0) ∧
      (u.st ≠ 0 → t.st = u.st - 1) ∧ (u.st = 0 → t.st = 0) ∧ (t.sound = true ↔ u.st = 1)) ∧
    (∀ f, step s = .fault f → ∀ font,
      transact font .step s = ({ s with outcome := .fault f, sound := false }, .stepped (.fault f) false))

/-- The sound trigger fires exactly when the timer phase takes `ST` from 1 to 0, never by FX18's own write (R240, R207; its
form is decision D25), and the host gets it beside the outcome; a faulted step returns the fault and `false`, whatever the
trigger of the step before (R90, R99: decision D2; assumption 6). That both outputs are recorded in the state is the model's
choice, assumption 2. -/
def Obligations.SoundFiresOnlyOnOneToZero : Prop :=
  ∀ s : State,
    (∀ t, step s = .next t →
      ((∀ x, ¬ RunsAt s (.ldSTVx x)) → (t.sound = true ↔ s.st = 1)) ∧
      (∀ x, RunsAt s (.ldSTVx x) → (t.sound = true ↔ s.getV x = 1)) ∧
      (t.sound = true → t.st = 0) ∧
      ∀ font, transact font .step s = (t, .stepped t.outcome t.sound)) ∧
    (∀ f, step s = .fault f → ∀ font,
      (transact font .step s).2 = .stepped (.fault f) false ∧
      (transact font .step s).1.outcome = .fault f ∧ (transact font .step s).1.sound = false)

/-- The outcome and the sound trigger are outputs, not state: no step depends on them (R38: decision D25; assumption 2). -/
def Obligations.StepIgnoresOutputs : Prop :=
  ∀ (s : State) (r : Report) (b : Bool), step { s with outcome := r, sound := b } = step s

/-- No instruction but CXNN depends on the random draw, and none but EX9E, EXA1 and FX0A on the key matrix (R100: decision
D28; R274: derived). -/
def Obligations.InputsReadOnlyByTheirInstructions : Prop :=
  ∀ (i : Instr) (s : State),
    ((∀ x nn, i ≠ .rndVxNN x nn) →
      ∀ n, exec i { s with draws := n } = onNext (fun t => { t with draws := n }) (exec i s)) ∧
    ((∀ x, i ≠ .skp x ∧ i ≠ .sknp x ∧ i ≠ .ldVxK x) →
      ∀ k, exec i { s with keys := k } = onNext (fun t => { t with keys := k }) (exec i s))

/-- R96: a completed instruction advances `pc` by 2 or, a taken skip, by 4, or sets it absolutely; only FX0A waits. -/
def Obligations.PcMovesByTwoFourOrTarget : Prop :=
  ∀ (s t : State) (i : Instr), RunsAt s i → step s = .next t →
    (t.outcome = .completed ∧
      match i with
      | .jp nnn | .call nnn => t.pc.toNat = nnn.toNat
      | .jpV0 nnn => t.pc.toNat = nnn.toNat + (s.getV 0).toNat
      | .ret => t.pc = s.stack[s.sp.val - 1] + 2
      | .seVxNN _ _ | .sneVxNN _ _ | .seVxVy _ _ | .sneVxVy _ _ | .skp _ | .sknp _ =>
          t.pc = s.pc + 2 ∨ t.pc = s.pc + 4
      | _ => t.pc = s.pc + 2) ∨
    (t.outcome = .waiting ∧ t.pc = s.pc ∧ ∃ x, i = .ldVxK x)

/-- Every instruction runs from exactly the states that meet its conditions, and faults from the others; none is refused
(R220, R222 to R225; the fault of a bad address, pixel or key number is decision D1, D16 or D11). -/
def Obligations.InstructionRunsExactlyWhen : Prop :=
  ∀ (i : Instr) (s : State),
    (CanRun i s → ∃ t, exec i s = .next t) ∧ (¬ CanRun i s → ∃ f, exec i s = .fault f)

/-- What an instruction leaves unchanged: every register and every part of the state but those it writes (R22, R34; the
tables are the spec's derivation). -/
def Obligations.InstructionFrame : Prop :=
  ∀ (i : Instr) (s t : State), exec i s = .next t → KeepsExcept (regsWritten i) (partsWritten i) s t

/-! ### Faults -/

/-- 2NNN on a full stack and 00EE on an empty one, and nothing else, raise a stack fault, of the kind R223 records. That the
fault also records the `pc` of the instruction (R110, R111) is the model's choice, assumption 9. -/
def Obligations.StackFaultsExactly : Prop :=
  ∀ (i : Instr) (s : State) (k : StackFaultKind) (p : Word),
    exec i s = .fault (.stackFault k p) ↔
      p = s.pc ∧ (((∃ nnn, i = .call nnn) ∧ s.sp.val = 16 ∧ k = .overflow) ∨
        (i = .ret ∧ s.sp.val = 0 ∧ k = .underflow))

/-- An instruction raises a memory fault exactly when one of its addresses `I`, `I + 1`, … exceeds 0xFFF, and reports the
lowest such; the fetch likewise, before any decode (R59, R222, R229: decisions D1, D2, D20). -/
def Obligations.MemoryFaultReportsLowestAddress : Prop :=
  (∀ (i : Instr) (s : State) (a : Nat), exec i s = .fault (.memoryFault a) ↔
    (∃ k, k < accessLength i ∧ a = s.index.toNat + k) ∧ 0xFFF < a ∧
      ∀ k, s.index.toNat + k < a → s.index.toNat + k ≤ 0xFFF) ∧
  (∀ s : State, (s.pc.toNat = 0xFFF → step s = .fault (.memoryFault 0x1000)) ∧
    (0xFFF < s.pc.toNat → step s = .fault (.memoryFault s.pc.toNat)))

/-- DXYN reports the first off-grid set pixel, rows top to bottom and columns left to right, once every sprite address is in
range; nothing else raises this fault (R182, R224, R229: decisions D16, D20; which bit is which column is D15 and the spec's general
knowledge G4, assumption 7). -/
def Obligations.DisplayFaultReportsFirstPixel : Prop :=
  ∀ (i : Instr) (s : State) (column row : Nat),
    exec i s = .fault (.displayFault column row) ↔
      ∃ x y n, i = .drw x y n ∧ (n = 0 ∨ s.index.toNat + n ≤ 0x1000) ∧
        SetPixel s x y n column row ∧ (63 < column ∨ 31 < row) ∧
        ∀ column' row', SetPixel s x y n column' row' → (63 < column' ∨ 31 < row') →
          row < row' ∨ (row = row' ∧ column ≤ column')

/-- A faulted step returns its fault and no sound, leaves the state it began with but for these two outputs, and repeats
whatever the keys, the random draw and the outputs become (R90, R226: decision D2; assumption 6). That these outputs are
recorded in the state is the model's choice, assumption 2. -/
def Obligations.FaultedStepChangesNothingAndRepeats : Prop :=
  ∀ (s : State) (f : Fault), step s = .fault f →
    (∀ font, transact font .step s = ({ s with outcome := .fault f, sound := false }, .stepped (.fault f) false)) ∧
    ∀ k n r b, step { s with keys := k, draws := n, outcome := r, sound := b } = .fault f

/-- R227: a program longer than 3584 bytes is refused with its length and no state change; no step raises this fault. -/
def Obligations.RomTooLargeOnlyFromLoad : Prop :=
  (∀ (font : Font) (rom : List Byte) (s : State), 3584 < rom.length →
    transact font (.load rom) s = (s, .loadReturned (.fault (.romTooLarge rom.length)))) ∧
  (∀ (s : State) (n : Nat), step s ≠ .fault (.romTooLarge n))

/-! ### Invariants -/

/-- Every step from a state that meets the invariant ends in one that meets it (R28, which the spec marks as derived;
assumption 3 for the memory's form). -/
def Obligations.StepKeepsInvariant : Prop :=
  ∀ s t : State, s.Inv → step s = .next t → t.Inv

/-- The reset state meets the invariant. -/
def Obligations.ResetMeetsInvariant : Prop := State.reset.Inv

/-- Every transaction of the host keeps the invariant, a faulted step and a failed `load` included (R281: decision D30). -/
def Obligations.TransactionKeepsInvariant : Prop :=
  ∀ (font : Font) (ts : List Transaction) (s : State), s.Inv → (transactAll font ts s).Inv

/-! ### Control flow -/

/-- R113: 1NNN; a bad target faults at the next fetch, and a jump to its own address completes and ticks the timers, for
ever. -/
def Obligations.JumpSetsPc : Prop :=
  Encodes 0xF000 0x1000 (fun w => .jp (fieldNNN w)) ∧
  (∀ (nnn : Addr12) (s : State), ∃ t, exec (.jp nnn) s = .next t ∧
    t.pc.toNat = nnn.toNat ∧ t.outcome = .completed ∧ BadTargetFaultsNext t ∧ KeepsExcept [] [] s t) ∧
  (∀ (nnn : Addr12) (s : State), s.pc.toNat = nnn.toNat → RunsAt s (.jp nnn) →
    ∃ t, step s = .next t ∧ t.pc = s.pc ∧ t.outcome = .completed ∧ RunsAt t (.jp nnn) ∧
      (s.dt ≠ 0 → t.dt = s.dt - 1) ∧ (s.st ≠ 0 → t.st = s.st - 1) ∧ KeepsExcept [] [.dt, .st, .sound] s t)

/-- R114: 2NNN pushes its own address; on a full stack it faults; a call to its own address recurses until the 17th push. -/
def Obligations.CallPushesItsAddress : Prop :=
  Encodes 0xF000 0x2000 (fun w => .call (fieldNNN w)) ∧
  ∀ (nnn : Addr12) (s : State),
    (s.sp.val < 16 → ∃ t, exec (.call nnn) s = .next t ∧
      t.pc.toNat = nnn.toNat ∧ t.sp.val = s.sp.val + 1 ∧
      (∀ j : Fin 16, t.stack[j] = if j.val = s.sp.val then s.pc else s.stack[j]) ∧
      t.outcome = .completed ∧ KeepsExcept [] [.sp, .stack] s t) ∧
    (s.sp.val = 16 → exec (.call nnn) s = .fault (.stackFault .overflow s.pc)) ∧
    (s.sp.val = 0 → s.pc.toNat = nnn.toNat → RunsAt s (.call nnn) →
      (∀ k, k ≤ 16 → ∃ t : State, Sys2Proof.core.run k s = .next t ∧ t.sp.val = k ∧ t.pc = s.pc) ∧
      Sys2Proof.core.run 17 s = .fault (.stackFault .overflow s.pc))

/-- 00EE (R112; that bits 11-8 are ignored is decision D4) pops the address of the call and goes on 2 past it; the entry keeps its value; on an empty stack it faults. -/
def Obligations.ReturnPopsAndAddsTwo : Prop :=
  Encodes 0xF0FF 0x00EE (fun _ => .ret) ∧
  ∀ s : State,
    (s.sp.val ≠ 0 → ∃ t, exec .ret s = .next t ∧
      t.pc = s.stack[s.sp.val - 1] + 2 ∧ t.sp.val = s.sp.val - 1 ∧
      t.outcome = .completed ∧ BadTargetFaultsNext t ∧ KeepsExcept [] [.sp] s t) ∧
    (s.sp.val = 0 → exec .ret s = .fault (.stackFault .underflow s.pc))

/-- R115, R116: 3XNN and 4XNN; a taken skip may leave memory, and the next fetch faults. -/
def Obligations.SkipOnImmediate : Prop :=
  Encodes 0xF000 0x3000 (fun w => .seVxNN (fieldX w) (fieldNN w)) ∧
  Encodes 0xF000 0x4000 (fun w => .sneVxNN (fieldX w) (fieldNN w)) ∧
  ∀ (x : Reg) (nn : Byte) (s : State),
    (∃ t, exec (.seVxNN x nn) s = .next t ∧ (s.getV x = nn → t.pc = s.pc + 4) ∧ (s.getV x ≠ nn → t.pc = s.pc + 2) ∧
      t.outcome = .completed ∧ BadTargetFaultsNext t ∧ KeepsExcept [] [] s t) ∧
    (∃ t, exec (.sneVxNN x nn) s = .next t ∧ (s.getV x ≠ nn → t.pc = s.pc + 4) ∧ (s.getV x = nn → t.pc = s.pc + 2) ∧
      t.outcome = .completed ∧ BadTargetFaultsNext t ∧ KeepsExcept [] [] s t)

/-- 5XY0 and 9XY0, whatever bits 3-0 are (R117, R118, R77: decision D4 for those bits). -/
def Obligations.SkipOnRegister : Prop :=
  Encodes 0xF000 0x5000 (fun w => .seVxVy (fieldX w) (fieldY w)) ∧
  Encodes 0xF000 0x9000 (fun w => .sneVxVy (fieldX w) (fieldY w)) ∧
  ∀ (x y : Reg) (s : State),
    (∃ t, exec (.seVxVy x y) s = .next t ∧ (s.getV x = s.getV y → t.pc = s.pc + 4) ∧
      (s.getV x ≠ s.getV y → t.pc = s.pc + 2) ∧ t.outcome = .completed ∧ BadTargetFaultsNext t ∧ KeepsExcept [] [] s t) ∧
    (∃ t, exec (.sneVxVy x y) s = .next t ∧ (s.getV x ≠ s.getV y → t.pc = s.pc + 4) ∧
      (s.getV x = s.getV y → t.pc = s.pc + 2) ∧ t.outcome = .completed ∧ BadTargetFaultsNext t ∧ KeepsExcept [] [] s t)

/-- BNNN: `pc` is `NNN + V0`, not masked to 12 bits (R119: decision D1). -/
def Obligations.ComputedJumpAddsV0 : Prop :=
  Encodes 0xF000 0xB000 (fun w => .jpV0 (fieldNNN w)) ∧
  ∀ (nnn : Addr12) (s : State), ∃ t, exec (.jpV0 nnn) s = .next t ∧
    t.pc.toNat = nnn.toNat + (s.getV 0).toNat ∧ t.outcome = .completed ∧ BadTargetFaultsNext t ∧ KeepsExcept [] [] s t

/-- A call followed at once by a return comes back to the word after the call, with the stack pointer as before; nothing
changes but the pushed entry, which keeps the address of the call, the timers and the sound trigger (R120, which the spec
marks as derived). -/
def Obligations.CallThenReturnComesBack : Prop :=
  ∀ (s : State) (nnn : Addr12), s.sp.val < 16 → RunsAt s (.call nnn) →
    nnn.toNat ≠ 0xFFF → decode (joinBytes (Memory.read s.mem nnn.toNat) (Memory.read s.mem (nnn.toNat + 1))) = .instr .ret →
    ∃ t u, step s = .next t ∧ step t = .next u ∧ t.pc.toNat = nnn.toNat ∧ u.pc = s.pc + 2 ∧ u.sp = s.sp ∧
      (∀ j : Fin 16, u.stack[j] = if j.val = s.sp.val then s.pc else s.stack[j]) ∧
      KeepsExcept [] [.stack, .dt, .st, .sound] s u

/-! ### Register arithmetic and logic -/

/-- R130, R132: 6XNN loads the byte and 8XY0 copies the register; VF changes only as a destination. -/
def Obligations.LoadAndCopyRegister : Prop :=
  Encodes 0xF000 0x6000 (fun w => .ldVxNN (fieldX w) (fieldNN w)) ∧
  Encodes 0xF00F 0x8000 (fun w => .ldVxVy (fieldX w) (fieldY w)) ∧
  ∀ (x y : Reg) (nn : Byte) (s : State),
    (∃ t, exec (.ldVxNN x nn) s = .next t ∧ t.getV x = nn ∧
      t.pc = s.pc + 2 ∧ t.outcome = .completed ∧ KeepsExcept [x] [] s t) ∧
    (∃ t, exec (.ldVxVy x y) s = .next t ∧ t.getV x = s.getV y ∧
      t.pc = s.pc + 2 ∧ t.outcome = .completed ∧ KeepsExcept [x] [] s t)

/-- 7XNN wraps modulo 256, and 8XY1, 8XY2 and 8XY3 work bit by bit; none of them writes VF unless it is the destination
(R131, R133 to R135: decision D9; the nibbles of group 8 are the spec's general knowledge G6, assumption 7). -/
def Obligations.AddImmediateAndLogicWriteNoFlag : Prop :=
  Encodes 0xF000 0x7000 (fun w => .addVxNN (fieldX w) (fieldNN w)) ∧
  Encodes 0xF00F 0x8001 (fun w => .orVxVy (fieldX w) (fieldY w)) ∧
  Encodes 0xF00F 0x8002 (fun w => .andVxVy (fieldX w) (fieldY w)) ∧
  Encodes 0xF00F 0x8003 (fun w => .xorVxVy (fieldX w) (fieldY w)) ∧
  ∀ (x y : Reg) (nn : Byte) (s : State),
    (∃ t, exec (.addVxNN x nn) s = .next t ∧ (t.getV x).toNat = ((s.getV x).toNat + nn.toNat) % 256 ∧
      t.pc = s.pc + 2 ∧ t.outcome = .completed ∧ KeepsExcept [x] [] s t) ∧
    (∃ t, exec (.orVxVy x y) s = .next t ∧
      (∀ k, (t.getV x).getLsbD k = ((s.getV x).getLsbD k || (s.getV y).getLsbD k)) ∧
      t.pc = s.pc + 2 ∧ t.outcome = .completed ∧ KeepsExcept [x] [] s t) ∧
    (∃ t, exec (.andVxVy x y) s = .next t ∧
      (∀ k, (t.getV x).getLsbD k = ((s.getV x).getLsbD k && (s.getV y).getLsbD k)) ∧
      t.pc = s.pc + 2 ∧ t.outcome = .completed ∧ KeepsExcept [x] [] s t) ∧
    (∃ t, exec (.xorVxVy x y) s = .next t ∧
      (∀ k, (t.getV x).getLsbD k = ((s.getV x).getLsbD k ^^ (s.getV y).getLsbD k)) ∧
      t.pc = s.pc + 2 ∧ t.outcome = .completed ∧ KeepsExcept [x] [] s t)

/-- R136: 8XY4; VF ends as the carry whatever the destination is, the sum goes to any other destination. -/
def Obligations.AddSetsCarry : Prop :=
  Encodes 0xF00F 0x8004 (fun w => .addVxVy (fieldX w) (fieldY w)) ∧
  ∀ (x y : Reg) (s : State), ∃ t, exec (.addVxVy x y) s = .next t ∧
    (x ≠ vf → (t.getV x).toNat = ((s.getV x).toNat + (s.getV y).toNat) % 256) ∧
    t.getV vf = (if (s.getV x).toNat + (s.getV y).toNat > 255 then 1 else 0) ∧
    t.pc = s.pc + 2 ∧ t.outcome = .completed ∧ KeepsExcept [x, vf] [] s t

/-- 8XY5 and 8XY7: the difference, and VF 1 exactly when there is no borrow (R137, R139: decision D8; which operand is
subtracted is the spec's general knowledge G8, and the nibbles 5 and 7 are G6: assumption 7). -/
def Obligations.SubtractSetsNoBorrow : Prop :=
  Encodes 0xF00F 0x8005 (fun w => .subVxVy (fieldX w) (fieldY w)) ∧
  Encodes 0xF00F 0x8007 (fun w => .subnVxVy (fieldX w) (fieldY w)) ∧
  ∀ (x y : Reg) (s : State),
    (∃ t, exec (.subVxVy x y) s = .next t ∧
      (x ≠ vf → (t.getV x).toNat = ((s.getV x).toNat + 256 - (s.getV y).toNat) % 256) ∧
      t.getV vf = (if (s.getV y).toNat ≤ (s.getV x).toNat then 1 else 0) ∧
      t.pc = s.pc + 2 ∧ t.outcome = .completed ∧ KeepsExcept [x, vf] [] s t) ∧
    (∃ t, exec (.subnVxVy x y) s = .next t ∧
      (x ≠ vf → (t.getV x).toNat = ((s.getV y).toNat + 256 - (s.getV x).toNat) % 256) ∧
      t.getV vf = (if (s.getV x).toNat ≤ (s.getV y).toNat then 1 else 0) ∧
      t.pc = s.pc + 2 ∧ t.outcome = .completed ∧ KeepsExcept [x, vf] [] s t)

/-- 8XY6 and 8XYE shift `V[X]` in place, `V[Y]` is not read, and VF is the bit shifted out (R129, R138, R140: decision D7;
the flag is the spec's general knowledge G9, and the nibble 6 is G6: assumption 7). -/
def Obligations.ShiftSetsBitShiftedOut : Prop :=
  Encodes 0xF00F 0x8006 (fun w => .shrVx (fieldX w) (fieldY w)) ∧
  Encodes 0xF00F 0x800E (fun w => .shlVx (fieldX w) (fieldY w)) ∧
  ∀ (x y : Reg) (s : State),
    (∃ t, exec (.shrVx x y) s = .next t ∧ (x ≠ vf → (t.getV x).toNat = (s.getV x).toNat / 2) ∧
      (t.getV vf).toNat = (s.getV x).toNat % 2 ∧
      t.pc = s.pc + 2 ∧ t.outcome = .completed ∧ KeepsExcept [x, vf] [] s t) ∧
    (∃ t, exec (.shlVx x y) s = .next t ∧ (x ≠ vf → (t.getV x).toNat = (s.getV x).toNat * 2 % 256) ∧
      (t.getV vf).toNat = (s.getV x).toNat / 128 ∧
      t.pc = s.pc + 2 ∧ t.outcome = .completed ∧ KeepsExcept [x, vf] [] s t)

/-- CXNN: for every random byte `r` the result is `r AND NN`; the instruction runs on the draw's free byte and the next draw
is another (R145: decision D28; assumption 1). -/
def Obligations.RandomByteIsMasked : Prop :=
  Encodes 0xF000 0xC000 (fun w => .rndVxNN (fieldX w) (fieldNN w)) ∧
  (∀ (r : Byte) (x : Reg) (nn : Byte) (s : State), ∃ t, rndWith r x nn s = .next t ∧
    (∀ k, (t.getV x).getLsbD k = (r.getLsbD k && nn.getLsbD k)) ∧
    t.pc = s.pc + 2 ∧ t.outcome = .completed ∧ t.draws = s.draws + 1 ∧ KeepsExcept [x] [.draws] s t) ∧
  (∀ (x : Reg) (nn : Byte) (s : State), exec (.rndVxNN x nn) s = rndWith (Config.randomByte s.draws) x nn s ∧
    ∃ t, exec (.rndVxNN x nn) s = .next t ∧ (∀ k, nn.getLsbD k = false → (t.getV x).getLsbD k = false) ∧
      t.pc = s.pc + 2 ∧ t.outcome = .completed ∧ t.draws = s.draws + 1 ∧ KeepsExcept [x] [.draws] s t)

/-- R24: 8XY4, 8XY5, 8XY6, 8XY7 and 8XYE compute a result and a flag from the old operands alone, write the result to `V[X]`
and then the flag to VF: VF ends as the flag even when it is `X`, and when it is `Y` the old VF is the operand. The carry of
8XY4 does not depend on the destination. FX1E and DXYN write VF and no other register. -/
def Obligations.FlagIsWrittenLast : Prop :=
  (∀ make ∈ [Instr.addVxVy, Instr.subVxVy, Instr.shrVx, Instr.subnVxVy, Instr.shlVx],
    ∃ result flagValue : Byte → Byte → Byte, ∀ (x y : Reg) (s : State), ∃ t, exec (make x y) s = .next t ∧
      t.getV vf = flagValue (s.getV x) (s.getV y) ∧ (x ≠ vf → t.getV x = result (s.getV x) (s.getV y)) ∧
      (t.getV vf = 0 ∨ t.getV vf = 1)) ∧
  (∀ (x y : Reg) (s t : State), exec (.addVxVy x y) s = .next t →
    (t.getV vf = 1 ↔ 255 < (s.getV x).toNat + (s.getV y).toNat)) ∧
  (∀ (x y : Reg) (n : Nat) (s t : State), (exec (.addIVx x) s = .next t ∨ exec (.drw x y n) s = .next t) →
    (t.getV vf = 0 ∨ t.getV vf = 1) ∧ ∀ k, k ≠ vf → t.getV k = s.getV k)

/-! ### The index register and memory -/

/-- R160: ANNN. -/
def Obligations.LoadIndexSetsI : Prop :=
  Encodes 0xF000 0xA000 (fun w => .ldINNN (fieldNNN w)) ∧
  ∀ (nnn : Addr12) (s : State), ∃ t, exec (.ldINNN nnn) s = .next t ∧ t.index.toNat = nnn.toNat ∧
    t.pc = s.pc + 2 ∧ t.outcome = .completed ∧ KeepsExcept [] [.index] s t

/-- FX1E adds, wraps modulo 2^16 and sets VF exactly when the sum passes 0xFFF; FX29 makes `I` five times the digit, neither
masked nor checked (R161, R162: decisions D12, D13, D14). -/
def Obligations.AddIndexAndGlyphAddress : Prop :=
  Encodes 0xF0FF 0xF01E (fun w => .addIVx (fieldX w)) ∧ Encodes 0xF0FF 0xF029 (fun w => .ldFVx (fieldX w)) ∧
  ∀ (x : Reg) (s : State),
    (∃ t, exec (.addIVx x) s = .next t ∧
      t.index.toNat = (s.index.toNat + (s.getV x).toNat) % 65536 ∧
      t.getV vf = (if s.index.toNat + (s.getV x).toNat > 0xFFF then 1 else 0) ∧
      t.pc = s.pc + 2 ∧ t.outcome = .completed ∧ KeepsExcept [vf] [.index] s t) ∧
    (∃ t, exec (.ldFVx x) s = .next t ∧ t.index.toNat = (s.getV x).toNat * 5 ∧
      t.pc = s.pc + 2 ∧ t.outcome = .completed ∧ KeepsExcept [] [.index] s t)

/-- R163: FX33 stores the digits at `I`, `I + 1`, `I + 2` and nothing else, or faults with the lowest bad address. -/
def Obligations.BcdStoresDigits : Prop :=
  Encodes 0xF0FF 0xF033 (fun w => .ldBVx (fieldX w)) ∧
  ∀ (x : Reg) (s : State), Memory.wf s.mem = true →
    (s.index.toNat + 2 ≤ 0xFFF → ∃ t, exec (.ldBVx x) s = .next t ∧
      (Memory.read t.mem (indexAddr s 0)).toNat = (s.getV x).toNat / 100 ∧
      (Memory.read t.mem (indexAddr s 1)).toNat = (s.getV x).toNat / 10 % 10 ∧
      (Memory.read t.mem (indexAddr s 2)).toNat = (s.getV x).toNat % 10 ∧
      (∀ a, (a < indexAddr s 0 ∨ indexAddr s 2 < a) → Memory.read t.mem a = Memory.read s.mem a) ∧
      t.pc = s.pc + 2 ∧ t.outcome = .completed ∧ KeepsExcept [] [.mem] s t) ∧
    (0xFFF < s.index.toNat + 2 → exec (.ldBVx x) s = .fault (.memoryFault (max s.index.toNat 0x1000)))

/-- R164: FX55 stores `V[0]` to `V[X]` at `I` to `I + X` and nothing else, and advances `I`; or it faults with the lowest bad
address. -/
def Obligations.StoreBlockStoresRegisters : Prop :=
  Encodes 0xF0FF 0xF055 (fun w => .ldMemVx (fieldX w)) ∧
  ∀ (x : Reg) (s : State), Memory.wf s.mem = true →
    (s.index.toNat + x.val ≤ 0xFFF → ∃ t, exec (.ldMemVx x) s = .next t ∧
      (∀ k : Reg, k ≤ x → Memory.read t.mem (indexAddr s k.val) = s.getV k) ∧
      (∀ a, (a < indexAddr s 0 ∨ indexAddr s x.val < a) → Memory.read t.mem a = Memory.read s.mem a) ∧
      t.index.toNat = s.index.toNat + x.val + 1 ∧
      t.pc = s.pc + 2 ∧ t.outcome = .completed ∧ KeepsExcept [] [.mem, .index] s t) ∧
    (0xFFF < s.index.toNat + x.val → exec (.ldMemVx x) s = .fault (.memoryFault (max s.index.toNat 0x1000)))

/-- R165: FX65 loads `V[0]` to `V[X]` from `I` to `I + X` and advances `I`; or it faults with the lowest bad address. -/
def Obligations.LoadBlockLoadsRegisters : Prop :=
  Encodes 0xF0FF 0xF065 (fun w => .ldVxMem (fieldX w)) ∧
  ∀ (x : Reg) (s : State),
    (s.index.toNat + x.val ≤ 0xFFF → ∃ t, exec (.ldVxMem x) s = .next t ∧
      (∀ k : Reg, k ≤ x → t.getV k = Memory.read s.mem (s.index.toNat + k.val)) ∧
      (∀ k : Reg, x < k → t.getV k = s.getV k) ∧
      t.index.toNat = s.index.toNat + x.val + 1 ∧
      t.pc = s.pc + 2 ∧ t.outcome = .completed ∧ KeepsExcept (regsWritten (.ldVxMem x)) [.index] s t) ∧
    (0xFFF < s.index.toNat + x.val → exec (.ldVxMem x) s = .fault (.memoryFault (max s.index.toNat 0x1000)))

/-- FX55, then ANNN with the address it started from, then FX65 with the same `X`, gives every register back and leaves `I` one
past the block (R166, which the spec marks as derived). -/
def Obligations.StoreThenLoadRestoresRegisters : Prop :=
  ∀ (x : Reg) (nnn : Addr12) (s : State), Memory.wf s.mem = true → s.index.toNat = nnn.toNat →
    s.index.toNat + x.val ≤ 0xFFF →
    ∃ t u v, exec (.ldMemVx x) s = .next t ∧ exec (.ldINNN nnn) t = .next u ∧ exec (.ldVxMem x) u = .next v ∧
      (∀ k, v.getV k = s.getV k) ∧ v.index.toNat = s.index.toNat + x.val + 1

/-- A write gives back its byte, leaves every other address alone and keeps the canonical form; and canonical memories that
read alike are the same data (R61, R54; assumption 3). -/
def Obligations.MemoryReadAfterWrite : Prop :=
  (∀ (m : Memory) (a : Nat) (b : Byte), Memory.wf m = true → a ≤ 0xFFF →
    Memory.read (Memory.write m a b) a = b ∧
    (∀ c, c ≠ a → Memory.read (Memory.write m a b) c = Memory.read m c) ∧ Memory.wf (Memory.write m a b) = true) ∧
  (∀ m m' : Memory, Memory.wf m = true → Memory.wf m' = true → (∀ a, Memory.read m a = Memory.read m' a) → m = m')

/-- A stored byte is fetched as written by every later fetch, and every other byte as before (R64, R273, which the spec marks
as derived): after a completed FX55 or FX33 at `s`, from any state `u` whose two bytes at `pc` are still as the store left
them, the fetch reads the byte at `pc` above the byte at `pc + 1`, each of them the stored one where its address is in the
block and the old one where it is not. -/
def Obligations.StoredBytesAreFetched : Prop :=
  (∀ (x : Reg) (s t u : State), Memory.wf s.mem = true → exec (.ldMemVx x) s = .next t → u.pc.toNat ≤ 0xFFE →
    (∀ j, j < 2 → Memory.read u.mem (u.pc.toNat + j) = Memory.read t.mem (u.pc.toNat + j)) →
    ∃ hi lo, fetch u = .ok (joinBytes hi lo) ∧
      ∀ (a : Nat) (b : Byte), (a = u.pc.toNat ∧ b = hi ∨ a = u.pc.toNat + 1 ∧ b = lo) →
        (∀ k : Reg, k ≤ x → a = indexAddr s k.val → b = s.getV k) ∧
        ((a < indexAddr s 0 ∨ indexAddr s x.val < a) → b = Memory.read s.mem a)) ∧
  (∀ (x : Reg) (s t u : State), Memory.wf s.mem = true → exec (.ldBVx x) s = .next t → u.pc.toNat ≤ 0xFFE →
    (∀ j, j < 2 → Memory.read u.mem (u.pc.toNat + j) = Memory.read t.mem (u.pc.toNat + j)) →
    ∃ hi lo, fetch u = .ok (joinBytes hi lo) ∧
      ∀ (a : Nat) (b : Byte), (a = u.pc.toNat ∧ b = hi ∨ a = u.pc.toNat + 1 ∧ b = lo) →
        (a = indexAddr s 0 → b.toNat = (s.getV x).toNat / 100) ∧
        (a = indexAddr s 1 → b.toNat = (s.getV x).toNat / 10 % 10) ∧
        (a = indexAddr s 2 → b.toNat = (s.getV x).toNat % 10) ∧
        ((a < indexAddr s 0 ∨ indexAddr s 2 < a) → b = Memory.read s.mem a))

/-! ### The framebuffer -/

/-- 00E0 clears every cell and sets `drawFlag` even when nothing changes (R180: decision D18; bits 11-8 ignored: D4). -/
def Obligations.ClearScreenClearsEveryCell : Prop :=
  Encodes 0xF0FF 0x00E0 (fun _ => .cls) ∧
  ∀ s : State, ∃ t, exec .cls s = .next t ∧ (∀ x y, Framebuffer.cell t.fb x y = false) ∧ t.drawFlag = true ∧
    t.pc = s.pc + 2 ∧ t.outcome = .completed ∧ KeepsExcept [] [.fb, .drawFlag] s t

/-- DXYN inverts exactly the cells under set pixels, sets VF exactly when one of them held 1, and sets `drawFlag`
(R181, which takes the order of a byte's pixels from general knowledge, G4 and assumption 7; R183: decisions D15, D17, D18). -/
def Obligations.DrawInvertsCellsUnderSprite : Prop :=
  Encodes 0xF000 0xD000 (fun w => .drw (fieldX w) (fieldY w) (fieldN w)) ∧
  ∀ (x y : Reg) (n : Nat) (s : State), (n = 0 ∨ s.index.toNat + n ≤ 0x1000) →
    (∀ column row, SetPixel s x y n column row → column ≤ 63 ∧ row ≤ 31) →
    ∃ t, exec (.drw x y n) s = .next t ∧
      (∀ a b, SetPixel s x y n a b → Framebuffer.cell t.fb a b = !Framebuffer.cell s.fb a b) ∧
      (∀ a b, ¬ SetPixel s x y n a b → Framebuffer.cell t.fb a b = Framebuffer.cell s.fb a b) ∧
      (t.getV vf = 1 ∨ t.getV vf = 0) ∧
      (t.getV vf = 1 ↔ ∃ a b, SetPixel s x y n a b ∧ Framebuffer.cell s.fb a b = true) ∧
      t.drawFlag = true ∧ t.pc = s.pc + 2 ∧ t.outcome = .completed ∧ KeepsExcept [vf] [.fb, .drawFlag] s t

/-- A second draw of the same sprite at the same place restores every cell, and sets VF exactly when a touched cell was 0
before the first (R184, which the spec marks as derived). -/
def Obligations.DoubleDrawRestoresCells : Prop :=
  ∀ (x y : Reg) (n : Nat) (s t u v : State), exec (.drw x y n) s = .next t →
    u.fb = t.fb → u.index = s.index → u.getV x = s.getV x → u.getV y = s.getV y →
    (∀ r, r < n → Memory.read u.mem (s.index.toNat + r) = Memory.read s.mem (s.index.toNat + r)) →
    exec (.drw x y n) u = .next v →
    v.fb = s.fb ∧ (v.getV vf = 1 ↔ ∃ a b, SetPixel s x y n a b ∧ Framebuffer.cell s.fb a b = false)

/-- The host's array: 2048 bytes, row-major, each 0 or 1 (R35, R185). -/
def Obligations.FramebufferIsRowMajorBytes : Prop :=
  ∀ fb : Framebuffer, (Framebuffer.bytes fb).length = 2048 ∧
    ∀ x y, x < 64 → y < 32 →
      (Framebuffer.bytes fb)[y * 64 + x]? = some (if Framebuffer.cell fb x y = true then 1 else 0)

/-! ### Keys and timers -/

/-- EX9E and EXA1 skip by the level of the key in `V[X]`; with a number above 0xF they raise a key fault that reports it, and
nothing else raises one (R200 to R202, R225: decisions D10, D11). -/
def Obligations.SkipOnKeyLevel : Prop :=
  Encodes 0xF0FF 0xE09E (fun w => .skp (fieldX w)) ∧ Encodes 0xF0FF 0xE0A1 (fun w => .sknp (fieldX w)) ∧
  (∀ (x : Reg) (s : State) (k : Fin 16), (s.getV x).toNat = k.val →
    (∃ t, exec (.skp x) s = .next t ∧ (s.keys[k] ≠ 0 → t.pc = s.pc + 4) ∧ (s.keys[k] = 0 → t.pc = s.pc + 2) ∧
      t.outcome = .completed ∧ KeepsExcept [] [] s t) ∧
    (∃ t, exec (.sknp x) s = .next t ∧ (s.keys[k] = 0 → t.pc = s.pc + 4) ∧ (s.keys[k] ≠ 0 → t.pc = s.pc + 2) ∧
      t.outcome = .completed ∧ KeepsExcept [] [] s t)) ∧
  (∀ (i : Instr) (s : State) (k : Byte),
    exec i s = .fault (.keyFault k) ↔ ∃ x, (i = .skp x ∨ i = .sknp x) ∧ k = s.getV x ∧ 0xF < k.toNat)

/-- FX0A stores the smallest pressed key; with none pressed it waits with no write (R203, R204: decisions D5, D10; that
the key's number is what it stores is the spec's general knowledge G5, assumption 7). -/
def Obligations.WaitForKeyStoresSmallest : Prop :=
  Encodes 0xF0FF 0xF00A (fun w => .ldVxK (fieldX w)) ∧
  ∀ (x : Reg) (s : State),
    (∀ k : Fin 16, s.keys[k] ≠ 0 → (∀ j : Fin 16, j < k → s.keys[j] = 0) →
      ∃ t, exec (.ldVxK x) s = .next t ∧ (t.getV x).toNat = k.val ∧
        t.pc = s.pc + 2 ∧ t.outcome = .completed ∧ KeepsExcept [x] [] s t) ∧
    ((∀ k : Fin 16, s.keys[k] = 0) →
      ∃ t, exec (.ldVxK x) s = .next t ∧ t.pc = s.pc ∧ t.outcome = .waiting ∧ KeepsExcept [] [] s t)

/-- A waiting step ran an FX0A and changed nothing but the timers; the next step waits again, until the host presses a key:
then the next step stores that key in the register of that FX0A, goes on and changes nothing else but the timers (R203, R204:
decisions D5, D10; that the key's number is what FX0A stores is the spec's general knowledge G5, assumption 7). -/
def Obligations.WaitRepeatsUntilKey : Prop :=
  ∀ s t : State, step s = .next t → t.outcome = .waiting → ∃ x, RunsAt s (.ldVxK x) ∧
    t.pc = s.pc ∧ KeepsExcept [] [.dt, .st, .sound] s t ∧
    (∃ u, step t = .next u ∧ u.outcome = .waiting ∧ u.pc = s.pc ∧ KeepsExcept [] [.dt, .st, .sound] s u) ∧
    (∀ (k : Fin 16) (b : Byte), b ≠ 0 → ∃ u, step (setKey k b t) = .next u ∧ u.outcome = .completed ∧
      (u.getV x).toNat = k.val ∧ u.pc = s.pc + 2 ∧ u.keys = s.keys.set k b ∧
      u.dt.toNat = t.dt.toNat - 1 ∧ u.st.toNat = t.st.toNat - 1 ∧
      KeepsExcept [x] [.keys, .dt, .st, .sound] s u)

/-- FX07 reads `DT`, FX15 writes it and FX18 writes `ST` (R205 to R207; which pattern is which is the spec's general
knowledge G7, assumption 7). -/
def Obligations.TimerTransfers : Prop :=
  Encodes 0xF0FF 0xF007 (fun w => .ldVxDT (fieldX w)) ∧ Encodes 0xF0FF 0xF015 (fun w => .ldDTVx (fieldX w)) ∧
  Encodes 0xF0FF 0xF018 (fun w => .ldSTVx (fieldX w)) ∧
  ∀ (x : Reg) (s : State),
    (∃ t, exec (.ldVxDT x) s = .next t ∧ t.getV x = s.dt ∧
      t.pc = s.pc + 2 ∧ t.outcome = .completed ∧ KeepsExcept [x] [] s t) ∧
    (∃ t, exec (.ldDTVx x) s = .next t ∧ t.dt = s.getV x ∧
      t.pc = s.pc + 2 ∧ t.outcome = .completed ∧ KeepsExcept [] [.dt] s t) ∧
    (∃ t, exec (.ldSTVx x) s = .next t ∧ t.st = s.getV x ∧
      t.pc = s.pc + 2 ∧ t.outcome = .completed ∧ KeepsExcept [] [.st] s t)

/-- Timers count steps: along any run of `k` steps that no FX15 (FX18) is part of, `DT` (`ST`) falls by one a step down to 0
(R237, R238; R238 is marked derived). -/
def Obligations.TimersCountSteps : Prop :=
  ∀ (k : Nat) (s t : State), Sys2Proof.core.run k s = .next t →
    ((∀ j u, j < k → Sys2Proof.core.run j s = .next u → ∀ x, ¬ RunsAt u (.ldDTVx x)) →
      t.dt.toNat = s.dt.toNat - k) ∧
    ((∀ j u, j < k → Sys2Proof.core.run j s = .next u → ∀ x, ¬ RunsAt u (.ldSTVx x)) →
      t.st.toNat = s.st.toNat - k)

/-! ### Reset and the host -/

/-- The reset state (R39, R260), and that of an engine with any other `FONT` (R266: decision D21), which differs in the font
bytes only. The zeros outside what the source lists are decision D22. -/
def Obligations.ResetLeavesZeroAndFont : Prop :=
  ((∀ k, State.reset.getV k = 0) ∧ State.reset.index = 0 ∧ State.reset.pc = 0x200 ∧ State.reset.sp = 0 ∧
    (∀ j : Fin 16, State.reset.stack[j] = 0) ∧ State.reset.dt = 0 ∧ State.reset.st = 0 ∧
    State.reset.drawFlag = false ∧ (∀ x y, Framebuffer.cell State.reset.fb x y = false) ∧
    (∀ k : Fin 16, State.reset.keys[k] = 0)) ∧
  State.resetWith defaultFont = State.reset ∧
  (∀ font : Font, (∀ (a : Nat) (h : a < 80), Memory.read (State.resetWith font).mem a = font.bytes[a]) ∧
    (∀ a, 80 ≤ a → Memory.read (State.resetWith font).mem a = 0) ∧
    Memory.wf (State.resetWith font).mem = true ∧ (State.resetWith font).pc = 0x200 ∧
    KeepsExcept [] [.mem] State.reset (State.resetWith font))

/-- `load` of a program of at most 3584 bytes, on an engine with any `FONT`, installs it at 0x200 over the font and zeros, and
sets everything else as reset does, whatever the state before; glyph `d` is the 5 bytes from `5 * d` on, where FX29 points,
and bits 3 to 0 of each are 0; the model's own draw counter goes on (R260, R262, R265, R266: the glyphs are marked derived,
decisions D21, D22, D34; assumption 1). -/
def Obligations.LoadInstallsProgram : Prop :=
  ∀ (font : Font) (rom : List Byte) (s : State), rom.length ≤ 3584 →
    ∃ t, transact font (.load rom) s = (t, .loadReturned .loaded) ∧
      (∀ (a : Nat) (h : a < 80), Memory.read t.mem a = font.bytes[a]) ∧
      (∀ a, a < 80 → (Memory.read t.mem a).extractLsb' 0 4 = 0#4) ∧
      (∀ (digit : Byte) (d : Fin 16) (r : Fin 5), digit.toNat = d.val →
        Memory.read t.mem ((glyphAddr digit).toNat + r.val) = font.bytes[5 * d.val + r.val]) ∧
      (∀ (k : Nat) (h : k < rom.length), Memory.read t.mem (0x200 + k) = rom[k]) ∧
      (∀ a, (80 ≤ a ∧ a < 0x200 ∨ 0x200 + rom.length ≤ a) → Memory.read t.mem a = 0) ∧
      t.pc = 0x200 ∧ t.outcome = .loaded ∧
      KeepsExcept [] [.mem, .draws] State.reset t ∧ t.draws = s.draws

/-- R261: a successful `load` leaves the same state whatever the state before it, two of the same program leave the state of
one, and a failed one changes nothing. (The draw counter is the model's own and not the engine's: assumption 1.) -/
def Obligations.ReloadReinitialises : Prop :=
  ∀ (font : Font) (rom : List Byte) (s s' : State),
    (rom.length ≤ 3584 →
      ({ (transact font (.load rom) s).1 with draws := 0 } : State) =
        { (transact font (.load rom) s').1 with draws := 0 } ∧
      transact font (.load rom) (transact font (.load rom) s).1 = transact font (.load rom) s) ∧
    (3584 < rom.length → (transact font (.load rom) s).1 = s)

/-- R283: the host's `consumeDraw` clears `drawFlag` and nothing else; no step, no `setKey` and no read clears it. -/
def Obligations.DrawFlagClearedOnlyByConsume : Prop :=
  (∀ (font : Font) (s : State), transact font .consumeDraw s = ({ s with drawFlag := false }, .nothing)) ∧
  (∀ (font : Font) (t : Transaction) (s : State), s.drawFlag = true → (transact font t s).1.drawFlag = false →
    t = .consumeDraw ∨ ∃ rom, t = .load rom)

/-- `setKey` writes one key byte and nothing else; a read writes nothing; and no step writes a key (R281, R284, R33: decision
D30). -/
def Obligations.HostSetsOneKey : Prop :=
  ∀ font : Font,
  (∀ (k : Fin 16) (b : Byte) (s : State), ∃ t, transact font (.setKey k b) s = (t, .nothing) ∧
    (∀ j : Fin 16, t.keys[j] = if j = k then b else s.keys[j]) ∧ t.pc = s.pc ∧ t.outcome = s.outcome ∧
    KeepsExcept [] [.keys] s t) ∧
  (∀ s : State, transact font .read s = (s, .observed s)) ∧
  (∀ s : State, (transact font .step s).1.keys = s.keys)

/-- Running off the end of a program into 0x00 bytes, at any `pc` and in any state (R263, which the spec marks as derived; that
`pc` stays is decision D6): the step reports the word 0x0000 and changes nothing but the timers, so that the next one does
the same; after any number of steps the outcome is the same and the timers have counted down. -/
def Obligations.ZeroWordIsReportedForEver : Prop :=
  ∀ s : State, s.pc.toNat ≤ 0xFFE → Memory.read s.mem s.pc.toNat = 0 → Memory.read s.mem (s.pc.toNat + 1) = 0 →
    (∃ t, step s = .next t ∧ t.outcome = .unknown 0x0000 ∧ t.pc = s.pc ∧ t.mem = s.mem ∧
      t.dt = (if s.dt = 0 then 0 else s.dt - 1) ∧ t.st = (if s.st = 0 then 0 else s.st - 1) ∧
      (t.sound = true ↔ s.st = 1) ∧ KeepsExcept [] [.dt, .st, .sound] s t) ∧
    (∀ k, ∃ t : State, Sys2Proof.core.run (k + 1) s = .next t ∧ t.outcome = .unknown 0x0000 ∧ t.pc = s.pc ∧
      t.mem = s.mem ∧ t.dt.toNat = s.dt.toNat - (k + 1) ∧ t.st.toNat = s.st.toNat - (k + 1) ∧
      KeepsExcept [] [.dt, .st, .sound] s t)
end

