-- ==== Sys2Proof/Machine/Assembly.lean ====
section
/-! DEFINITION. The assembler's side of an instruction: its written form (30_encoding.md R82, R84) and the bytes of a program of
instructions and data bytes (R83). The engine reads none of it. -/

namespace Sys2Proof.Machine

/-- One hexadecimal digit, upper case. -/
def hexDigit (n : Nat) : Char := "0123456789ABCDEF".toList.getD n '?'

/-- A number as `0x` and `digits` hexadecimal digits (R82). -/
def hexNumber : Nat → Nat → String
  | digits, n => "0x" ++ String.ofList ((List.range digits).reverse.map fun k => hexDigit (n / 16 ^ k % 16))

/-- `V0` to `VF` (R82). -/
def regName (x : Reg) : String := "V" ++ String.ofList [hexDigit x.val]

/-- The written form of an instruction (R82, R84): operands after the mnemonic, the destination first. -/
def assemblyText : Instr → String
  | .cls => "CLS"
  | .ret => "RET"
  | .jp nnn => "JP " ++ hexNumber 3 nnn.toNat
  | .call nnn => "CALL " ++ hexNumber 3 nnn.toNat
  | .seVxNN x nn => "SE " ++ regName x ++ ", " ++ hexNumber 2 nn.toNat
  | .sneVxNN x nn => "SNE " ++ regName x ++ ", " ++ hexNumber 2 nn.toNat
  | .seVxVy x y => "SE " ++ regName x ++ ", " ++ regName y
  | .sneVxVy x y => "SNE " ++ regName x ++ ", " ++ regName y
  | .ldVxNN x nn => "LD " ++ regName x ++ ", " ++ hexNumber 2 nn.toNat
  | .addVxNN x nn => "ADD " ++ regName x ++ ", " ++ hexNumber 2 nn.toNat
  | .ldVxVy x y => "LD " ++ regName x ++ ", " ++ regName y
  | .orVxVy x y => "OR " ++ regName x ++ ", " ++ regName y
  | .andVxVy x y => "AND " ++ regName x ++ ", " ++ regName y
  | .xorVxVy x y => "XOR " ++ regName x ++ ", " ++ regName y
  | .addVxVy x y => "ADD " ++ regName x ++ ", " ++ regName y
  | .subVxVy x y => "SUB " ++ regName x ++ ", " ++ regName y
  | .shrVx x _ => "SHR " ++ regName x
  | .subnVxVy x y => "SUBN " ++ regName x ++ ", " ++ regName y
  | .shlVx x _ => "SHL " ++ regName x
  | .ldINNN nnn => "LD I, " ++ hexNumber 3 nnn.toNat
  | .jpV0 nnn => "JP V0, " ++ hexNumber 3 nnn.toNat
  | .rndVxNN x nn => "RND " ++ regName x ++ ", " ++ hexNumber 2 nn.toNat
  | .drw x y n => "DRW " ++ regName x ++ ", " ++ regName y ++ ", " ++ toString n
  | .skp x => "SKP " ++ regName x
  | .sknp x => "SKNP " ++ regName x
  | .ldVxDT x => "LD " ++ regName x ++ ", DT"
  | .ldDTVx x => "LD DT, " ++ regName x
  | .ldSTVx x => "LD ST, " ++ regName x
  | .ldVxK x => "LD " ++ regName x ++ ", K"
  | .addIVx x => "ADD I, " ++ regName x
  | .ldFVx x => "LD F, " ++ regName x
  | .ldBVx x => "LD B, " ++ regName x
  | .ldMemVx x => "LD [I], " ++ regName x
  | .ldVxMem x => "LD " ++ regName x ++ ", [I]"

/-- The instruction that an assembler encodes for `assemblyText i`: SHR VX and SHL VX, which do not spell their unread `Y`, are
written with `Y = 0` (R84); every other operand is spelled. -/
def asWritten (i : Instr) : Instr :=
  match i with
  | .shrVx x _ => .shrVx x 0
  | .shlVx x _ => .shlVx x 0
  | .cls | .ret | .jp _ | .call _ | .seVxNN _ _ | .sneVxNN _ _ | .seVxVy _ _ | .sneVxVy _ _ => i
  | .ldVxNN _ _ | .addVxNN _ _ | .ldVxVy _ _ | .orVxVy _ _ | .andVxVy _ _ | .xorVxVy _ _ => i
  | .addVxVy _ _ | .subVxVy _ _ | .subnVxVy _ _ | .ldINNN _ | .jpV0 _ | .rndVxNN _ _ | .drw _ _ _ => i
  | .skp _ | .sknp _ | .ldVxDT _ | .ldDTVx _ | .ldSTVx _ | .ldVxK _ => i
  | .addIVx _ | .ldFVx _ | .ldBVx _ | .ldMemVx _ | .ldVxMem _ => i

/-- One line of a program: an instruction or a data byte `DB 0xKK` (R83). -/
inductive Line where
  | code (i : Instr)
  | db (b : Byte)
  deriving DecidableEq, Repr

/-- The bytes of one line (R83, R84). -/
def Line.bytes : Line → List Byte
  | .code i => encodeBytes (asWritten i)
  | .db b => [b]

/-- The bytes of a program, as `load` takes them (R83, R262). -/
def assemble (ls : List Line) : List Byte := ls.flatMap Line.bytes

end Sys2Proof.Machine
end

