-- ==== Sys2Proof/Laws/Assembly.lean ====
section
/-! SUPPORT. An instruction as an assembler writes it: same spelling, same effect, and the one term of that spelling for the
shifts (30_encoding.md R84). -/

namespace Sys2Proof.Machine

/-- The written form leaves out nothing but the `Y` of a shift, which `asWritten` sets to 0. -/
@[simp] theorem assemblyText_asWritten (i : Instr) : assemblyText (asWritten i) = assemblyText i := by cases i <;> rfl

@[simp] theorem asWritten_asWritten (i : Instr) : asWritten (asWritten i) = asWritten i := by cases i <;> rfl

@[simp] theorem wf_asWritten (i : Instr) : (asWritten i).wf = i.wf := by cases i <;> rfl

/-- No arm reads the `Y` that is written as 0 (R129), so the assembled instruction has the effect of the term. -/
theorem exec_asWritten (i : Instr) (s : State) : exec (asWritten i) s = exec i s := by cases i <;> rfl

/-- Two shifts of one spelling assemble to the same bytes. -/
theorem shr_bytes (x y z : Reg) : Line.bytes (.code (.shrVx x y)) = Line.bytes (.code (.shrVx x z)) := rfl
theorem shl_bytes (x y z : Reg) : Line.bytes (.code (.shlVx x y)) = Line.bytes (.code (.shlVx x z)) := rfl

end Sys2Proof.Machine
end

