-- ==== Sys2Proof/Laws/Decode.lean ====
section
/-! SUPPORT. The field lemmas of the encoder's layouts: each field cut from a layout is the operand put there (R71, R72); and
the byte order's round trip (R55). -/

namespace Sys2Proof

/-- A field that lies in the low part of a concatenation. -/
theorem extract_append_low {m n : Nat} (a : BitVec m) (b : BitVec n) {lo len : Nat} (h : lo + len ≤ n) :
    (a ++ b).extractLsb' lo len = b.extractLsb' lo len := by
  ext i hi
  simp [BitVec.getLsbD_append, show lo + i < n by omega]

/-- A field that lies in the high part of a concatenation. -/
theorem extract_append_high {m n : Nat} (a : BitVec m) (b : BitVec n) {lo len : Nat} (h : n ≤ lo) :
    (a ++ b).extractLsb' lo len = a.extractLsb' (lo - n) len := by
  ext i hi
  simp [BitVec.getLsbD_append, show ¬ lo + i < n by omega, show lo + i - n = lo - n + i by omega]

/-- The field that is a whole value. -/
theorem extract_all {n : Nat} (a : BitVec n) : a.extractLsb' 0 n = a := by
  ext i hi
  simp

/-- A register number put into four bits and cut out again. -/
theorem reg_of_bits {b : BitVec 4} {x : Reg} (h : b = BitVec.ofNat 4 x.val) : (⟨b.toNat, b.isLt⟩ : Reg) = x := by
  subst h
  ext
  simp

@[simp] theorem fieldOp_encodeA (op : BitVec 4) (nnn : Addr12) : fieldOp (encodeA op nnn) = op.toNat :=
  congrArg BitVec.toNat ((extract_append_high op nnn (lo := 12) (len := 4) (by omega)).trans (extract_all op))

@[simp] theorem fieldNNN_encodeA (op : BitVec 4) (nnn : Addr12) : fieldNNN (encodeA op nnn) = nnn :=
  (extract_append_low op nnn (lo := 0) (len := 12) (by omega)).trans (extract_all nnn)

@[simp] theorem fieldNN_encodeA (op : BitVec 4) (nnn : Addr12) :
    fieldNN (encodeA op nnn) = nnn.extractLsb' 0 8 :=
  extract_append_low op nnn (lo := 0) (len := 8) (by omega)

@[simp] theorem fieldOp_encodeXK (op : BitVec 4) (x : Reg) (k : Byte) : fieldOp (encodeXK op x k) = op.toNat :=
  congrArg BitVec.toNat
    (((extract_append_high (op ++ BitVec.ofNat 4 x.val) k (lo := 12) (len := 4) (by omega)).trans
      (extract_append_high op (BitVec.ofNat 4 x.val) (lo := 4) (len := 4) (by omega))).trans (extract_all op))

@[simp] theorem fieldX_encodeXK (op : BitVec 4) (x : Reg) (k : Byte) : fieldX (encodeXK op x k) = x :=
  reg_of_bits
    (((extract_append_high (op ++ BitVec.ofNat 4 x.val) k (lo := 8) (len := 4) (by omega)).trans
      (extract_append_low op (BitVec.ofNat 4 x.val) (lo := 0) (len := 4) (by omega))).trans (extract_all _))

@[simp] theorem fieldNN_encodeXK (op : BitVec 4) (x : Reg) (k : Byte) : fieldNN (encodeXK op x k) = k :=
  (extract_append_low (op ++ BitVec.ofNat 4 x.val) k (lo := 0) (len := 8) (by omega)).trans (extract_all k)

/-- Layout `XYN` is layout `XK` with the last byte cut in two. -/
theorem encodeXYN_eq (op : BitVec 4) (x y : Reg) (n : BitVec 4) :
    encodeXYN op x y n = encodeXK op x (BitVec.ofNat 4 y.val ++ n) := by
  simp only [encodeXYN, encodeXK]
  exact BitVec.append_assoc

@[simp] theorem fieldOp_encodeXYN (op : BitVec 4) (x y : Reg) (n : BitVec 4) :
    fieldOp (encodeXYN op x y n) = op.toNat := by
  rw [encodeXYN_eq, fieldOp_encodeXK]

@[simp] theorem fieldX_encodeXYN (op : BitVec 4) (x y : Reg) (n : BitVec 4) : fieldX (encodeXYN op x y n) = x := by
  rw [encodeXYN_eq, fieldX_encodeXK]

@[simp] theorem fieldY_encodeXYN (op : BitVec 4) (x y : Reg) (n : BitVec 4) : fieldY (encodeXYN op x y n) = y :=
  reg_of_bits
    (((extract_append_high (op ++ BitVec.ofNat 4 x.val ++ BitVec.ofNat 4 y.val) n (lo := 4) (len := 4)
        (by omega)).trans
      (extract_append_low (op ++ BitVec.ofNat 4 x.val) (BitVec.ofNat 4 y.val) (lo := 0) (len := 4)
        (by omega))).trans (extract_all _))

@[simp] theorem fieldN_encodeXYN (op : BitVec 4) (x y : Reg) (n : BitVec 4) :
    fieldN (encodeXYN op x y n) = n.toNat :=
  congrArg BitVec.toNat
    ((extract_append_low (op ++ BitVec.ofNat 4 x.val ++ BitVec.ofNat 4 y.val) n (lo := 0) (len := 4)
      (by omega)).trans (extract_all n))

/-! ### Fields of a word that selects a row (R74): a field the mask covers is the row's. -/

theorem extract_of_mask {w mask m : Word} (h : w &&& mask = m) {lo len : Nat}
    (hm : mask.extractLsb' lo len = BitVec.allOnes len) : w.extractLsb' lo len = m.extractLsb' lo len := by
  rw [← h, BitVec.extractLsb'_and, hm, BitVec.and_allOnes]

theorem fieldOp_of_mask {w mask m : Word} (h : w &&& mask = m) (hm : mask.extractLsb' 12 4 = 0xF#4) :
    fieldOp w = fieldOp m := congrArg BitVec.toNat (extract_of_mask h hm)

theorem fieldN_of_mask {w mask m : Word} (h : w &&& mask = m) (hm : mask.extractLsb' 0 4 = 0xF#4) :
    fieldN w = fieldN m := congrArg BitVec.toNat (extract_of_mask h hm)

theorem fieldNN_of_mask {w mask m : Word} (h : w &&& mask = m) (hm : mask.extractLsb' 0 8 = 0xFF#8) :
    fieldNN w = fieldNN m := extract_of_mask h hm

/-- The two bytes of a word, read back big-endian, are the word (R55). -/
@[simp] theorem joinBytes_high_low (w : Word) : joinBytes (highByte w) (lowByte w) = w := by
  apply BitVec.eq_of_getLsbD_eq
  intro i hi
  simp only [joinBytes, highByte, lowByte, BitVec.getLsbD_append, BitVec.getLsbD_extractLsb']
  by_cases h : i < 8
  · simp [h]
  · simp [h, show i - 8 < 8 by omega, show 8 + (i - 8) = i by omega]

@[simp] theorem highByte_joinBytes (hi lo : Byte) : highByte (joinBytes hi lo) = hi :=
  (extract_append_high hi lo (lo := 8) (len := 8) (by omega)).trans (extract_all hi)

@[simp] theorem lowByte_joinBytes (hi lo : Byte) : lowByte (joinBytes hi lo) = lo :=
  (extract_append_low hi lo (lo := 0) (len := 8) (by omega)).trans (extract_all lo)

/-- Decoding the bytes of a word is decoding the word (R55, R70). -/
@[simp] theorem decodeBytes_wordBytes (w : Word) (rest : List Byte) :
    decodeBytes (wordBytes w ++ rest) = .word (decode w) rest := by
  simp [wordBytes, decodeBytes]

end Sys2Proof
end

