-- ==== Sys2Proof/Laws/Framebuffer.lean ====
section
/-! SUPPORT. The laws of the framebuffer (10_state.md R35, 44_display.md): reading a cell after an inversion, after a clear and
after a blit. -/

namespace Sys2Proof.Machine

theorem columnMask_getMsbD (x k : Nat) : (columnMask x).getMsbD k = decide (x = k ∧ k < 64) := by
  have top : ∀ j, (0x8000000000000000#64).getMsbD j = decide (j = 0) := by
    intro j
    by_cases hj : j < 64
    · have : ∀ i : Fin 64, (0x8000000000000000#64).getMsbD i.val = decide (i.val = 0) := by decide
      exact this ⟨j, hj⟩
    · rw [BitVec.getMsbD_of_ge _ _ (by omega)]
      simp; omega
  rw [columnMask, BitVec.getMsbD_ushiftRight]
  by_cases hk : k < 64
  · by_cases hx : k < x
    · simp [hx]; omega
    · simp only [top, hk, hx, decide_true, Bool.true_and]
      by_cases h : x = k
      · simp [h]
      · simp [h]; omega
  · simp [hk]

theorem Framebuffer.cell_of_row_ge (fb : Framebuffer) (x : Nat) {y : Nat} (h : 32 ≤ y) :
    Framebuffer.cell fb x y = false := by
  simp [Framebuffer.cell, Vector.getElem?_eq_none h]

theorem Framebuffer.cell_of_column_ge (fb : Framebuffer) {x : Nat} (y : Nat) (h : 64 ≤ x) :
    Framebuffer.cell fb x y = false := BitVec.getMsbD_of_ge _ _ h

@[simp] theorem Framebuffer.cell_clear (x y : Nat) : Framebuffer.cell Framebuffer.clear x y = false := by
  by_cases h : y < 32
  · simp [Framebuffer.cell, Framebuffer.clear, h]
  · exact Framebuffer.cell_of_row_ge _ _ (by omega)

/-- Inverting one cell inverts that cell and no other (R183). -/
theorem Framebuffer.cell_invert (fb : Framebuffer) {x y : Nat} (hx : x < 64) (hy : y < 32) (a b : Nat) :
    Framebuffer.cell (Framebuffer.invert fb x y) a b =
      (Framebuffer.cell fb a b ^^ decide (a = x ∧ b = y)) := by
  by_cases hb : b = y
  · subst b
    have : (Framebuffer.invert fb x y)[y]? = some (fb[y]?.getD 0 ^^^ columnMask x) := by
      simp [Framebuffer.invert, hy]
    simp only [Framebuffer.cell, this, Option.getD_some, BitVec.getMsbD_xor, columnMask_getMsbD]
    congr 1
    simp only [and_true, decide_eq_decide]
    constructor
    · rintro ⟨rfl, -⟩; rfl
    · rintro rfl; exact ⟨rfl, hx⟩
  · simp [Framebuffer.cell, Framebuffer.invert, hb, Ne.symm hb]

/-- Two framebuffers whose cells agree are the same data. -/
theorem Framebuffer.ext_cell {f g : Framebuffer}
    (h : ∀ x y, x < 64 → y < 32 → Framebuffer.cell f x y = Framebuffer.cell g x y) : f = g := by
  apply Vector.ext
  intro y hy
  apply BitVec.eq_of_getMsbD_eq
  intro x hx
  simpa [Framebuffer.cell, hy] using h x y hx hy

/-- No pixel of the list is off the grid. -/
def OnGrid (ps : List (Nat × Nat)) : Prop := ∀ p ∈ ps, p.1 < 64 ∧ p.2 < 32

theorem OnGrid.tail {p : Nat × Nat} {ps : List (Nat × Nat)} (h : OnGrid (p :: ps)) : OnGrid ps :=
  fun q hq => h q (List.mem_cons_of_mem p hq)

/-- A blit of distinct pixels inverts exactly their cells (R183). -/
theorem cell_blit {ps : List (Nat × Nat)} (hg : OnGrid ps) (hn : ps.Nodup) (fb : Framebuffer) (a b : Nat) :
    Framebuffer.cell (blit ps fb).1 a b = (Framebuffer.cell fb a b ^^ decide ((a, b) ∈ ps)) := by
  induction ps generalizing fb with
  | nil => simp [blit]
  | cons p ps ih =>
    obtain ⟨x, y⟩ := p
    obtain ⟨hx, hy⟩ := hg (x, y) (List.mem_cons_self ..)
    obtain ⟨hnot, hn'⟩ := List.nodup_cons.1 hn
    simp only [blit, ih hg.tail hn', Framebuffer.cell_invert fb hx hy, List.mem_cons, Prod.mk.injEq]
    by_cases h : a = x ∧ b = y
    · obtain ⟨rfl, rfl⟩ := h
      simp [hnot]
    · simp [h]

/-- The collision of a blit of distinct pixels: some cell of theirs held 1 (R183). -/
theorem collision_blit {ps : List (Nat × Nat)} (hg : OnGrid ps) (hn : ps.Nodup) (fb : Framebuffer) :
    (blit ps fb).2 = true ↔ ∃ p ∈ ps, Framebuffer.cell fb p.1 p.2 = true := by
  induction ps generalizing fb with
  | nil => simp [blit]
  | cons p ps ih =>
    obtain ⟨x, y⟩ := p
    obtain ⟨hx, hy⟩ := hg (x, y) (List.mem_cons_self ..)
    obtain ⟨hnot, hn'⟩ := List.nodup_cons.1 hn
    simp only [blit, Bool.or_eq_true, ih hg.tail hn', List.mem_cons, exists_eq_or_imp]
    refine or_congr_right (exists_congr fun q => and_congr_right fun hq => ?_)
    have hne : ¬ (q.1 = x ∧ q.2 = y) := by
      rintro ⟨rfl, rfl⟩; exact hnot hq
    simp [Framebuffer.cell_invert fb hx hy, hne]

/-! ### The pixels of a sprite -/

theorem mem_rowPixels {x0 y : Nat} {b : Byte} {p : Nat × Nat} :
    p ∈ rowPixels x0 y b ↔ ∃ c, c < 8 ∧ b.getLsbD (7 - c) = true ∧ p = (x0 + c, y) := by
  simp only [rowPixels, List.mem_map, List.mem_filter, List.mem_range]
  constructor
  · rintro ⟨c, ⟨hc, hb⟩, rfl⟩; exact ⟨c, hc, hb, rfl⟩
  · rintro ⟨c, hc, hb, rfl⟩; exact ⟨c, ⟨hc, hb⟩, rfl⟩

/-- The set pixels of a sprite (R181). -/
theorem mem_spritePixels {m : Memory} {a x0 y0 n : Nat} {p : Nat × Nat} :
    p ∈ spritePixels m a x0 y0 n ↔
      ∃ r c, r < n ∧ c < 8 ∧ (Memory.read m (a + r)).getLsbD (7 - c) = true ∧ p = (x0 + c, y0 + r) := by
  simp only [spritePixels, List.mem_flatMap, List.mem_range, mem_rowPixels]
  constructor
  · rintro ⟨r, hr, c, hc, hb, rfl⟩; exact ⟨r, c, hr, hc, hb, rfl⟩
  · rintro ⟨r, c, hr, hc, hb, rfl⟩; exact ⟨r, hr, c, hc, hb, rfl⟩

/-- Two set pixels of one draw never hit the same cell (R183). -/
theorem nodup_spritePixels (m : Memory) (a x0 y0 n : Nat) : (spritePixels m a x0 y0 n).Nodup := by
  rw [spritePixels, List.nodup_flatMap]
  constructor
  · intro r _
    refine (List.Nodup.filter _ List.nodup_range).map ?_
    intro c d h
    simpa using h
  · refine List.nodup_range.imp ?_
    intro r r' hne p hp hp'
    obtain ⟨c, -, -, rfl⟩ := mem_rowPixels.1 hp
    obtain ⟨c', -, -, h⟩ := mem_rowPixels.1 hp'
    simp at h
    omega

/-- The grid check passes exactly when every set pixel is on the grid (R182). -/
theorem checkPixels_none {ps : List (Nat × Nat)} : checkPixels ps = none ↔ OnGrid ps := by
  unfold checkPixels OnGrid
  cases h : ps.find? offGrid with
  | none =>
    simp only [true_iff]
    intro p hp
    have := List.find?_eq_none.1 h p hp
    simp [offGrid] at this
    omega
  | some q =>
    simp only [reduceCtorEq, false_iff]
    intro hg
    have h1 := List.find?_some h
    have h2 := hg q (List.mem_of_find?_eq_some h)
    simp [offGrid] at h1
    omega

end Sys2Proof.Machine
end

