-- ==== Sys2Proof/Laws/Memory.lean ====
section
/-! SUPPORT. The laws of memory (20_memory.md): read after write, the canonical form, and the range check. -/

namespace Sys2Proof.Machine

/-! ### The canonical form -/

theorem Memory.wfFrom_cons {lo a : Nat} {b : Byte} {m : Memory} :
    Memory.wfFrom lo ((a, b) :: m) = true ↔
      lo ≤ a ∧ a < 4096 ∧ b ≠ Memory.initial a ∧ Memory.wfFrom (a + 1) m = true := by
  simp [Memory.wfFrom, and_assoc]

theorem Memory.wfFrom_mono {lo lo' : Nat} {m : Memory} (hle : lo' ≤ lo) (h : Memory.wfFrom lo m = true) :
    Memory.wfFrom lo' m = true := by
  cases m with
  | nil => rfl
  | cons c m =>
    obtain ⟨h1, h2, h3, h4⟩ := Memory.wfFrom_cons.1 h
    exact Memory.wfFrom_cons.2 ⟨by omega, h2, h3, h4⟩

theorem Memory.wfFrom_put {m : Memory} {lo a : Nat} {b : Byte} (hlo : lo ≤ a) (ha : a < 4096)
    (h : Memory.wfFrom lo m = true) : Memory.wfFrom lo (Memory.put m a b) = true := by
  induction m generalizing lo with
  | nil =>
    by_cases hb : b = Memory.initial a
    · simp [Memory.put, hb, Memory.wfFrom]
    · simpa [Memory.put, hb, Memory.wfFrom] using ⟨hlo, ha⟩
  | cons c m ih =>
    obtain ⟨c, d⟩ := c
    obtain ⟨h1, h2, h3, h4⟩ := Memory.wfFrom_cons.1 h
    simp only [Memory.put]
    split
    · split
      · exact h
      · exact Memory.wfFrom_cons.2 ⟨hlo, ha, ‹_›, Memory.wfFrom_cons.2 ⟨by omega, h2, h3, h4⟩⟩
    · split
      · subst c
        split
        · exact Memory.wfFrom_mono (by omega) h4
        · exact Memory.wfFrom_cons.2 ⟨hlo, ha, ‹_›, h4⟩
      · exact Memory.wfFrom_cons.2 ⟨h1, h2, h3, ih (by omega) h4⟩

theorem Memory.wf_write {m : Memory} (h : Memory.wf m = true) (a : Nat) (b : Byte) :
    Memory.wf (Memory.write m a b) = true := by
  unfold Memory.write
  split
  · exact Memory.wfFrom_put (Nat.zero_le _) ‹_› h
  · exact h

theorem Memory.wf_writeBlock {bs : List Byte} {m : Memory} (h : Memory.wf m = true) (a : Nat) :
    Memory.wf (Memory.writeBlock m a bs) = true := by
  induction bs generalizing m a with
  | nil => exact h
  | cons b bs ih => exact ih (Memory.wf_write h a b) (a + 1)

/-- Bytes placed before the cells of a canonical list that starts past them keep the form. -/
theorem Memory.wfFrom_placedCells_append {bs : List Byte} {m : Memory} {a : Nat} (h : a + bs.length ≤ 4096)
    (hm : Memory.wfFrom (a + bs.length) m = true) : Memory.wfFrom a (placedCells a bs ++ m) = true := by
  induction bs generalizing a with
  | nil => exact hm
  | cons b bs ih =>
    rw [List.length_cons] at h hm
    have ih' := ih (a := a + 1) (by omega) (by rwa [Nat.add_right_comm, Nat.add_assoc])
    simp only [placedCells]
    split
    · exact Memory.wfFrom_mono (by omega) ih'
    · exact Memory.wfFrom_cons.2 ⟨le_refl _, by omega, ‹_›, ih'⟩

/-- The memory `load` leaves is canonical (R260). -/
theorem Memory.wf_loadedMemory (font : Font) {rom : List Byte} (h : rom.length ≤ 3584) :
    Memory.wf (loadedMemory font rom) = true := by
  have hrom : Memory.wfFrom 0x200 (placedCells 0x200 rom) = true := by
    have := Memory.wfFrom_placedCells_append (bs := rom) (m := []) (a := 0x200) (by omega) rfl
    rwa [List.append_nil] at this
  exact Memory.wfFrom_placedCells_append (a := 0) (by simp)
    (Memory.wfFrom_mono (by simp) hrom)

/-! ### Reading -/

theorem Memory.read_of_wfFrom_lt {m : Memory} {lo a : Nat} (h : Memory.wfFrom lo m = true) (ha : a < lo) :
    Memory.read m a = Memory.initial a := by
  induction m generalizing lo with
  | nil => rfl
  | cons c m ih =>
    obtain ⟨c, d⟩ := c
    obtain ⟨h1, -, -, h4⟩ := Memory.wfFrom_cons.1 h
    rw [Memory.read, if_neg (by omega)]
    exact ih h4 (by omega)

theorem Memory.read_of_ge {m : Memory} {lo a : Nat} (h : Memory.wfFrom lo m = true) (ha : 4096 ≤ a) :
    Memory.read m a = Memory.initial a := by
  induction m generalizing lo with
  | nil => rfl
  | cons c m ih =>
    obtain ⟨c, d⟩ := c
    obtain ⟨-, h2, -, h4⟩ := Memory.wfFrom_cons.1 h
    rw [Memory.read, if_neg (by omega)]
    exact ih h4

theorem Memory.read_put_other (m : Memory) {a c : Nat} (b : Byte) (h : c ≠ a) :
    Memory.read (Memory.put m a b) c = Memory.read m c := by
  induction m with
  | nil => by_cases hb : b = Memory.initial a <;> simp [Memory.put, hb, Memory.read, h]
  | cons e m ih =>
    obtain ⟨e, d⟩ := e
    simp only [Memory.put]
    split
    · split <;> simp [Memory.read, h]
    · split
      · subst e; split <;> simp [Memory.read, h]
      · simp [Memory.read, ih]

theorem Memory.read_put_same {m : Memory} {lo a : Nat} (b : Byte) (h : Memory.wfFrom lo m = true) :
    Memory.read (Memory.put m a b) a = b := by
  induction m generalizing lo with
  | nil => by_cases hb : b = Memory.initial a <;> simp [Memory.put, hb, Memory.read]
  | cons e m ih =>
    obtain ⟨e, d⟩ := e
    obtain ⟨h1, h2, h3, h4⟩ := Memory.wfFrom_cons.1 h
    simp only [Memory.put]
    split
    · split
      · rename_i hlt hb
        rw [Memory.read, if_neg (by omega), hb, Memory.read_of_wfFrom_lt h4 (by omega)]
      · simp [Memory.read]
    · split
      · subst e
        split
        · rename_i hb
          rw [hb, Memory.read_of_wfFrom_lt h4 (by omega)]
        · simp [Memory.read]
      · rename_i hne
        rw [Memory.read, if_neg hne]
        exact ih h4

/-- Read after write, same address (R61). -/
theorem Memory.read_write_same {m : Memory} {a : Nat} (b : Byte) (h : Memory.wf m = true) (ha : a ≤ 0xFFF) :
    Memory.read (Memory.write m a b) a = b := by
  rw [Memory.write, if_pos (show a < 4096 by omega)]
  exact Memory.read_put_same b h

/-- Read after write, another address (R61); it needs no canonical form. -/
theorem Memory.read_write_other (m : Memory) {a c : Nat} (b : Byte) (h : c ≠ a) :
    Memory.read (Memory.write m a b) c = Memory.read m c := by
  unfold Memory.write
  split
  · exact Memory.read_put_other m b h
  · rfl

/-- A block write leaves every address outside it alone. -/
theorem Memory.read_writeBlock_outside (bs : List Byte) (m : Memory) {a c : Nat}
    (h : c < a ∨ a + bs.length ≤ c) : Memory.read (Memory.writeBlock m a bs) c = Memory.read m c := by
  induction bs generalizing m a with
  | nil => rfl
  | cons b bs ih =>
    rw [List.length_cons] at h
    rw [Memory.writeBlock, ih _ (by omega), Memory.read_write_other m b (by omega)]

/-- A block write puts its bytes at rising addresses (R55). -/
theorem Memory.read_writeBlock_inside {bs : List Byte} {m : Memory} {a : Nat} (hm : Memory.wf m = true)
    (ha : a + bs.length ≤ 4096) (k : Nat) (hk : k < bs.length) :
    Memory.read (Memory.writeBlock m a bs) (a + k) = bs[k] := by
  induction bs generalizing m a k with
  | nil => simp at hk
  | cons b bs ih =>
    rw [List.length_cons] at ha hk
    rw [Memory.writeBlock]
    cases k with
    | zero =>
      rw [Memory.read_writeBlock_outside _ _ (by omega)]
      exact Memory.read_write_same b hm (by omega)
    | succ k =>
      have := ih (Memory.wf_write hm a b) (a := a + 1) (by omega) k (by omega)
      simpa [Nat.add_assoc, Nat.add_comm 1] using this

/-- What bytes placed before other cells read as: the bytes inside, the other cells outside. -/
theorem Memory.read_placedCells_append {bs : List Byte} {m : Memory} {a : Nat} (h : a + bs.length ≤ 4096)
    (hm : Memory.wfFrom (a + bs.length) m = true) (c : Nat) :
    Memory.read (placedCells a bs ++ m) c =
      if h : a ≤ c ∧ c < a + bs.length then bs[c - a]'(by omega) else Memory.read m c := by
  induction bs generalizing a with
  | nil => simp [placedCells]
  | cons b bs ih =>
    have h' : a + 1 + bs.length ≤ 4096 := by simp at h; omega
    have hm' : Memory.wfFrom (a + 1 + bs.length) m = true := by
      rwa [Nat.add_right_comm, Nat.add_assoc]
    have key : Memory.read (placedCells a (b :: bs) ++ m) c =
        if c = a then b else Memory.read (placedCells (a + 1) bs ++ m) c := by
      simp only [placedCells]
      split
      · rename_i hb
        by_cases hc : c = a
        · subst c; rw [if_pos rfl, hb]
          exact Memory.read_of_wfFrom_lt (Memory.wfFrom_placedCells_append h' hm') (by omega)
        · rw [if_neg hc]
      · rfl
    rw [key, ih h' hm']
    by_cases hc : c = a
    · subst c; simp
    · rw [if_neg hc]
      by_cases hr : a + 1 ≤ c ∧ c < a + 1 + bs.length
      · rw [dif_pos hr, dif_pos (by simp; omega)]
        obtain ⟨k, rfl⟩ : ∃ k, c = a + 1 + k := ⟨c - (a + 1), by omega⟩
        simp [show a + 1 + k - a = k + 1 by omega]
      · rw [dif_neg hr, dif_neg (by simp; omega)]

/-- Bits 3 to 0 of every byte of a font are 0 (R265). -/
theorem Font.low_bits (font : Font) {a : Nat} (h : a < 80) : font.bytes[a].extractLsb' 0 4 = 0#4 :=
  beq_iff_eq.1 (List.all_eq_true.1 font.ok _ (by simp))

/-- Past the font every unlisted address reads as 0 (R39). -/
theorem Memory.initial_of_ge {a : Nat} (h : 80 ≤ a) : Memory.initial a = 0 := by
  show defaultFontBytes.getD (a - 0) 0 = 0
  rw [List.getD_eq_getElem?_getD, List.getElem?_eq_none (show defaultFontBytes.length ≤ a - 0 from h)]
  rfl

/-- What the memory `load` leaves reads as: the font, the program, and 0 elsewhere (R39, R260, R266). -/
theorem Memory.read_loadedMemory (font : Font) {rom : List Byte} (h : rom.length ≤ 3584) (c : Nat) :
    Memory.read (loadedMemory font rom) c =
      if hf : c < 80 then font.bytes[c] else if hr : 0x200 ≤ c ∧ c < 0x200 + rom.length then rom[c - 0x200]'(by omega)
      else 0 := by
  have hrom := fun c => Memory.read_placedCells_append (bs := rom) (m := []) (a := 0x200) (by omega) rfl c
  have hwf := Memory.wfFrom_placedCells_append (bs := rom) (m := []) (a := 0x200) (by omega) rfl
  rw [List.append_nil] at hrom hwf
  have hfont := Memory.read_placedCells_append (bs := font.bytes.toList) (m := placedCells 0x200 rom) (a := 0) (by simp)
    (Memory.wfFrom_mono (by simp) hwf) c
  show Memory.read (placedCells 0 font.bytes.toList ++ placedCells 0x200 rom) c = _
  rw [hfont]
  by_cases hc : c < 80
  · rw [dif_pos (by simpa using hc), dif_pos hc]
    simp
  · rw [dif_neg (by simpa using hc), dif_neg hc, hrom]
    by_cases hr : 0x200 ≤ c ∧ c < 0x200 + rom.length
    · rw [dif_pos hr, dif_pos hr]
    · rw [dif_neg hr, dif_neg hr]
      exact Memory.initial_of_ge (by omega)

/-- Canonical memories that read alike are the same data (assumption 3). -/
theorem Memory.eq_of_read_eq {m m' : Memory} {lo lo' : Nat} (h : Memory.wfFrom lo m = true)
    (h' : Memory.wfFrom lo' m' = true) (hr : ∀ a, Memory.read m a = Memory.read m' a) : m = m' := by
  induction m generalizing lo lo' m' with
  | nil =>
    cases m' with
    | nil => rfl
    | cons c m' =>
      obtain ⟨-, -, h3, -⟩ := Memory.wfFrom_cons.1 h'
      exact absurd (by simpa [Memory.read] using (hr c.1).symm) h3
  | cons c m ih =>
    obtain ⟨a, b⟩ := c
    obtain ⟨-, -, h3, h4⟩ := Memory.wfFrom_cons.1 h
    cases m' with
    | nil => exact absurd (by simpa [Memory.read] using hr a) h3
    | cons c' m' =>
      obtain ⟨a', b'⟩ := c'
      obtain ⟨-, -, h3', h4'⟩ := Memory.wfFrom_cons.1 h'
      have ha : a = a' := by
        rcases Nat.lt_trichotomy a a' with hlt | heq | hgt
        · have := hr a
          rw [Memory.read, if_pos rfl, Memory.read, if_neg (by omega),
            Memory.read_of_wfFrom_lt h4' (by omega)] at this
          exact absurd this h3
        · exact heq
        · have := hr a'
          rw [Memory.read, if_neg (by omega), Memory.read_of_wfFrom_lt h4 (by omega), Memory.read,
            if_pos rfl] at this
          exact absurd this.symm h3'
      subst a'
      have hb : b = b' := by simpa [Memory.read] using hr a
      subst b'
      rw [ih h4 h4' (fun c => ?_)]
      by_cases hc : c = a
      · subst c
        rw [Memory.read_of_wfFrom_lt h4 (by omega), Memory.read_of_wfFrom_lt h4' (by omega)]
      · simpa [Memory.read, hc] using hr c

/-! ### The address decoder and the range check -/

theorem addrDecode_ok {a : Nat} (h : a ≤ 0xFFF) : addrDecode a = .ok a := by
  rw [addrDecode, if_neg (by omega)]

theorem addrDecode_fault {a : Nat} (h : 0xFFF < a) : addrDecode a = .error (.memoryFault a) := by
  rw [addrDecode, if_pos h]

theorem memRead_ok {a : Nat} {s : State} (h : a ≤ 0xFFF) : memRead a s = .ok (Memory.read s.mem a) := by
  rw [memRead, addrDecode_ok h]

theorem memRead_fault {a : Nat} {s : State} (h : 0xFFF < a) : memRead a s = .error (.memoryFault a) := by
  rw [memRead, addrDecode_fault h]

/-- The check passes exactly when every address exists. -/
theorem checkRange_none {a n : Nat} : checkRange a n = none ↔ n = 0 ∨ a + n ≤ 4096 := by
  induction n generalizing a with
  | zero => simp [checkRange]
  | succ n ih =>
    rw [checkRange]
    by_cases h : a ≤ 0xFFF
    · rw [addrDecode_ok h]
      simp only [ih]
      omega
    · rw [addrDecode_fault (by omega)]
      simp; omega

/-- The check reports the lowest address that does not exist (R59). -/
theorem checkRange_some {a n : Nat} {f : Fault} :
    checkRange a n = some f ↔ n ≠ 0 ∧ 4096 < a + n ∧ f = .memoryFault (max a 4096) := by
  induction n generalizing a with
  | zero => simp [checkRange]
  | succ n ih =>
    rw [checkRange]
    by_cases h : a ≤ 0xFFF
    · rw [addrDecode_ok h]
      simp only [ih]
      constructor
      · rintro ⟨h1, h2, rfl⟩
        exact ⟨by omega, by omega, by congr 1; omega⟩
      · rintro ⟨h1, h2, rfl⟩
        exact ⟨by omega, by omega, by congr 1; omega⟩
    · rw [addrDecode_fault (by omega), show max a 4096 = a by omega]
      simp only [Option.some.injEq]
      constructor
      · rintro rfl; exact ⟨by omega, by omega, rfl⟩
      · rintro ⟨-, -, rfl⟩; rfl

end Sys2Proof.Machine
end

