-- ==== Sys2Proof/Laws/State.lean ====
section
/-! SUPPORT. One lemma per field per named update of `State`, each true by `rfl`, so that no proof unfolds a record update. -/

namespace Sys2Proof.Machine

/-! `setV` -/

@[simp] theorem State.setV_v (s : State) (x : Reg) (b : Byte) : (s.setV x b).v = s.v.set x b := rfl
@[simp] theorem State.setV_index (s : State) (x : Reg) (b : Byte) : (s.setV x b).index = s.index := rfl
@[simp] theorem State.setV_pc (s : State) (x : Reg) (b : Byte) : (s.setV x b).pc = s.pc := rfl
@[simp] theorem State.setV_sp (s : State) (x : Reg) (b : Byte) : (s.setV x b).sp = s.sp := rfl
@[simp] theorem State.setV_stack (s : State) (x : Reg) (b : Byte) : (s.setV x b).stack = s.stack := rfl
@[simp] theorem State.setV_dt (s : State) (x : Reg) (b : Byte) : (s.setV x b).dt = s.dt := rfl
@[simp] theorem State.setV_st (s : State) (x : Reg) (b : Byte) : (s.setV x b).st = s.st := rfl
@[simp] theorem State.setV_drawFlag (s : State) (x : Reg) (b : Byte) : (s.setV x b).drawFlag = s.drawFlag := rfl
@[simp] theorem State.setV_keys (s : State) (x : Reg) (b : Byte) : (s.setV x b).keys = s.keys := rfl
@[simp] theorem State.setV_fb (s : State) (x : Reg) (b : Byte) : (s.setV x b).fb = s.fb := rfl
@[simp] theorem State.setV_mem (s : State) (x : Reg) (b : Byte) : (s.setV x b).mem = s.mem := rfl
@[simp] theorem State.setV_outcome (s : State) (x : Reg) (b : Byte) : (s.setV x b).outcome = s.outcome := rfl
@[simp] theorem State.setV_sound (s : State) (x : Reg) (b : Byte) : (s.setV x b).sound = s.sound := rfl
@[simp] theorem State.setV_draws (s : State) (x : Reg) (b : Byte) : (s.setV x b).draws = s.draws := rfl

/-! `setRegs` -/

@[simp] theorem State.setRegs_v (s : State) (w : Vector Byte 16) : (s.setRegs w).v = w := rfl
@[simp] theorem State.setRegs_index (s : State) (w : Vector Byte 16) : (s.setRegs w).index = s.index := rfl
@[simp] theorem State.setRegs_pc (s : State) (w : Vector Byte 16) : (s.setRegs w).pc = s.pc := rfl
@[simp] theorem State.setRegs_sp (s : State) (w : Vector Byte 16) : (s.setRegs w).sp = s.sp := rfl
@[simp] theorem State.setRegs_stack (s : State) (w : Vector Byte 16) : (s.setRegs w).stack = s.stack := rfl
@[simp] theorem State.setRegs_dt (s : State) (w : Vector Byte 16) : (s.setRegs w).dt = s.dt := rfl
@[simp] theorem State.setRegs_st (s : State) (w : Vector Byte 16) : (s.setRegs w).st = s.st := rfl
@[simp] theorem State.setRegs_drawFlag (s : State) (w : Vector Byte 16) : (s.setRegs w).drawFlag = s.drawFlag := rfl
@[simp] theorem State.setRegs_keys (s : State) (w : Vector Byte 16) : (s.setRegs w).keys = s.keys := rfl
@[simp] theorem State.setRegs_fb (s : State) (w : Vector Byte 16) : (s.setRegs w).fb = s.fb := rfl
@[simp] theorem State.setRegs_mem (s : State) (w : Vector Byte 16) : (s.setRegs w).mem = s.mem := rfl
@[simp] theorem State.setRegs_outcome (s : State) (w : Vector Byte 16) : (s.setRegs w).outcome = s.outcome := rfl
@[simp] theorem State.setRegs_sound (s : State) (w : Vector Byte 16) : (s.setRegs w).sound = s.sound := rfl
@[simp] theorem State.setRegs_draws (s : State) (w : Vector Byte 16) : (s.setRegs w).draws = s.draws := rfl

/-! `setIndex` -/

@[simp] theorem State.setIndex_v (s : State) (w : Word) : (s.setIndex w).v = s.v := rfl
@[simp] theorem State.setIndex_index (s : State) (w : Word) : (s.setIndex w).index = w := rfl
@[simp] theorem State.setIndex_pc (s : State) (w : Word) : (s.setIndex w).pc = s.pc := rfl
@[simp] theorem State.setIndex_sp (s : State) (w : Word) : (s.setIndex w).sp = s.sp := rfl
@[simp] theorem State.setIndex_stack (s : State) (w : Word) : (s.setIndex w).stack = s.stack := rfl
@[simp] theorem State.setIndex_dt (s : State) (w : Word) : (s.setIndex w).dt = s.dt := rfl
@[simp] theorem State.setIndex_st (s : State) (w : Word) : (s.setIndex w).st = s.st := rfl
@[simp] theorem State.setIndex_drawFlag (s : State) (w : Word) : (s.setIndex w).drawFlag = s.drawFlag := rfl
@[simp] theorem State.setIndex_keys (s : State) (w : Word) : (s.setIndex w).keys = s.keys := rfl
@[simp] theorem State.setIndex_fb (s : State) (w : Word) : (s.setIndex w).fb = s.fb := rfl
@[simp] theorem State.setIndex_mem (s : State) (w : Word) : (s.setIndex w).mem = s.mem := rfl
@[simp] theorem State.setIndex_outcome (s : State) (w : Word) : (s.setIndex w).outcome = s.outcome := rfl
@[simp] theorem State.setIndex_sound (s : State) (w : Word) : (s.setIndex w).sound = s.sound := rfl
@[simp] theorem State.setIndex_draws (s : State) (w : Word) : (s.setIndex w).draws = s.draws := rfl

/-! `setDT` -/

@[simp] theorem State.setDT_v (s : State) (b : Byte) : (s.setDT b).v = s.v := rfl
@[simp] theorem State.setDT_index (s : State) (b : Byte) : (s.setDT b).index = s.index := rfl
@[simp] theorem State.setDT_pc (s : State) (b : Byte) : (s.setDT b).pc = s.pc := rfl
@[simp] theorem State.setDT_sp (s : State) (b : Byte) : (s.setDT b).sp = s.sp := rfl
@[simp] theorem State.setDT_stack (s : State) (b : Byte) : (s.setDT b).stack = s.stack := rfl
@[simp] theorem State.setDT_dt (s : State) (b : Byte) : (s.setDT b).dt = b := rfl
@[simp] theorem State.setDT_st (s : State) (b : Byte) : (s.setDT b).st = s.st := rfl
@[simp] theorem State.setDT_drawFlag (s : State) (b : Byte) : (s.setDT b).drawFlag = s.drawFlag := rfl
@[simp] theorem State.setDT_keys (s : State) (b : Byte) : (s.setDT b).keys = s.keys := rfl
@[simp] theorem State.setDT_fb (s : State) (b : Byte) : (s.setDT b).fb = s.fb := rfl
@[simp] theorem State.setDT_mem (s : State) (b : Byte) : (s.setDT b).mem = s.mem := rfl
@[simp] theorem State.setDT_outcome (s : State) (b : Byte) : (s.setDT b).outcome = s.outcome := rfl
@[simp] theorem State.setDT_sound (s : State) (b : Byte) : (s.setDT b).sound = s.sound := rfl
@[simp] theorem State.setDT_draws (s : State) (b : Byte) : (s.setDT b).draws = s.draws := rfl

/-! `setST` -/

@[simp] theorem State.setST_v (s : State) (b : Byte) : (s.setST b).v = s.v := rfl
@[simp] theorem State.setST_index (s : State) (b : Byte) : (s.setST b).index = s.index := rfl
@[simp] theorem State.setST_pc (s : State) (b : Byte) : (s.setST b).pc = s.pc := rfl
@[simp] theorem State.setST_sp (s : State) (b : Byte) : (s.setST b).sp = s.sp := rfl
@[simp] theorem State.setST_stack (s : State) (b : Byte) : (s.setST b).stack = s.stack := rfl
@[simp] theorem State.setST_dt (s : State) (b : Byte) : (s.setST b).dt = s.dt := rfl
@[simp] theorem State.setST_st (s : State) (b : Byte) : (s.setST b).st = b := rfl
@[simp] theorem State.setST_drawFlag (s : State) (b : Byte) : (s.setST b).drawFlag = s.drawFlag := rfl
@[simp] theorem State.setST_keys (s : State) (b : Byte) : (s.setST b).keys = s.keys := rfl
@[simp] theorem State.setST_fb (s : State) (b : Byte) : (s.setST b).fb = s.fb := rfl
@[simp] theorem State.setST_mem (s : State) (b : Byte) : (s.setST b).mem = s.mem := rfl
@[simp] theorem State.setST_outcome (s : State) (b : Byte) : (s.setST b).outcome = s.outcome := rfl
@[simp] theorem State.setST_sound (s : State) (b : Byte) : (s.setST b).sound = s.sound := rfl
@[simp] theorem State.setST_draws (s : State) (b : Byte) : (s.setST b).draws = s.draws := rfl

/-! `setMem` -/

@[simp] theorem State.setMem_v (s : State) (m : Memory) : (s.setMem m).v = s.v := rfl
@[simp] theorem State.setMem_index (s : State) (m : Memory) : (s.setMem m).index = s.index := rfl
@[simp] theorem State.setMem_pc (s : State) (m : Memory) : (s.setMem m).pc = s.pc := rfl
@[simp] theorem State.setMem_sp (s : State) (m : Memory) : (s.setMem m).sp = s.sp := rfl
@[simp] theorem State.setMem_stack (s : State) (m : Memory) : (s.setMem m).stack = s.stack := rfl
@[simp] theorem State.setMem_dt (s : State) (m : Memory) : (s.setMem m).dt = s.dt := rfl
@[simp] theorem State.setMem_st (s : State) (m : Memory) : (s.setMem m).st = s.st := rfl
@[simp] theorem State.setMem_drawFlag (s : State) (m : Memory) : (s.setMem m).drawFlag = s.drawFlag := rfl
@[simp] theorem State.setMem_keys (s : State) (m : Memory) : (s.setMem m).keys = s.keys := rfl
@[simp] theorem State.setMem_fb (s : State) (m : Memory) : (s.setMem m).fb = s.fb := rfl
@[simp] theorem State.setMem_mem (s : State) (m : Memory) : (s.setMem m).mem = m := rfl
@[simp] theorem State.setMem_outcome (s : State) (m : Memory) : (s.setMem m).outcome = s.outcome := rfl
@[simp] theorem State.setMem_sound (s : State) (m : Memory) : (s.setMem m).sound = s.sound := rfl
@[simp] theorem State.setMem_draws (s : State) (m : Memory) : (s.setMem m).draws = s.draws := rfl

/-! `draw` -/

@[simp] theorem State.draw_v (s : State) (f : Framebuffer) : (s.draw f).v = s.v := rfl
@[simp] theorem State.draw_index (s : State) (f : Framebuffer) : (s.draw f).index = s.index := rfl
@[simp] theorem State.draw_pc (s : State) (f : Framebuffer) : (s.draw f).pc = s.pc := rfl
@[simp] theorem State.draw_sp (s : State) (f : Framebuffer) : (s.draw f).sp = s.sp := rfl
@[simp] theorem State.draw_stack (s : State) (f : Framebuffer) : (s.draw f).stack = s.stack := rfl
@[simp] theorem State.draw_dt (s : State) (f : Framebuffer) : (s.draw f).dt = s.dt := rfl
@[simp] theorem State.draw_st (s : State) (f : Framebuffer) : (s.draw f).st = s.st := rfl
@[simp] theorem State.draw_drawFlag (s : State) (f : Framebuffer) : (s.draw f).drawFlag = true := rfl
@[simp] theorem State.draw_keys (s : State) (f : Framebuffer) : (s.draw f).keys = s.keys := rfl
@[simp] theorem State.draw_fb (s : State) (f : Framebuffer) : (s.draw f).fb = f := rfl
@[simp] theorem State.draw_mem (s : State) (f : Framebuffer) : (s.draw f).mem = s.mem := rfl
@[simp] theorem State.draw_outcome (s : State) (f : Framebuffer) : (s.draw f).outcome = s.outcome := rfl
@[simp] theorem State.draw_sound (s : State) (f : Framebuffer) : (s.draw f).sound = s.sound := rfl
@[simp] theorem State.draw_draws (s : State) (f : Framebuffer) : (s.draw f).draws = s.draws := rfl

/-! `nextDraw` -/

@[simp] theorem State.nextDraw_v (s : State) : (s.nextDraw).v = s.v := rfl
@[simp] theorem State.nextDraw_index (s : State) : (s.nextDraw).index = s.index := rfl
@[simp] theorem State.nextDraw_pc (s : State) : (s.nextDraw).pc = s.pc := rfl
@[simp] theorem State.nextDraw_sp (s : State) : (s.nextDraw).sp = s.sp := rfl
@[simp] theorem State.nextDraw_stack (s : State) : (s.nextDraw).stack = s.stack := rfl
@[simp] theorem State.nextDraw_dt (s : State) : (s.nextDraw).dt = s.dt := rfl
@[simp] theorem State.nextDraw_st (s : State) : (s.nextDraw).st = s.st := rfl
@[simp] theorem State.nextDraw_drawFlag (s : State) : (s.nextDraw).drawFlag = s.drawFlag := rfl
@[simp] theorem State.nextDraw_keys (s : State) : (s.nextDraw).keys = s.keys := rfl
@[simp] theorem State.nextDraw_fb (s : State) : (s.nextDraw).fb = s.fb := rfl
@[simp] theorem State.nextDraw_mem (s : State) : (s.nextDraw).mem = s.mem := rfl
@[simp] theorem State.nextDraw_outcome (s : State) : (s.nextDraw).outcome = s.outcome := rfl
@[simp] theorem State.nextDraw_sound (s : State) : (s.nextDraw).sound = s.sound := rfl
@[simp] theorem State.nextDraw_draws (s : State) : (s.nextDraw).draws = s.draws + 1 := rfl

/-! `report` -/

@[simp] theorem State.report_v (s : State) (r : Report) : (s.report r).v = s.v := rfl
@[simp] theorem State.report_index (s : State) (r : Report) : (s.report r).index = s.index := rfl
@[simp] theorem State.report_pc (s : State) (r : Report) : (s.report r).pc = s.pc := rfl
@[simp] theorem State.report_sp (s : State) (r : Report) : (s.report r).sp = s.sp := rfl
@[simp] theorem State.report_stack (s : State) (r : Report) : (s.report r).stack = s.stack := rfl
@[simp] theorem State.report_dt (s : State) (r : Report) : (s.report r).dt = s.dt := rfl
@[simp] theorem State.report_st (s : State) (r : Report) : (s.report r).st = s.st := rfl
@[simp] theorem State.report_drawFlag (s : State) (r : Report) : (s.report r).drawFlag = s.drawFlag := rfl
@[simp] theorem State.report_keys (s : State) (r : Report) : (s.report r).keys = s.keys := rfl
@[simp] theorem State.report_fb (s : State) (r : Report) : (s.report r).fb = s.fb := rfl
@[simp] theorem State.report_mem (s : State) (r : Report) : (s.report r).mem = s.mem := rfl
@[simp] theorem State.report_outcome (s : State) (r : Report) : (s.report r).outcome = r := rfl
@[simp] theorem State.report_sound (s : State) (r : Report) : (s.report r).sound = s.sound := rfl
@[simp] theorem State.report_draws (s : State) (r : Report) : (s.report r).draws = s.draws := rfl

/-! `faulted` -/

@[simp] theorem State.faulted_v (s : State) (f : Fault) : (s.faulted f).v = s.v := rfl
@[simp] theorem State.faulted_index (s : State) (f : Fault) : (s.faulted f).index = s.index := rfl
@[simp] theorem State.faulted_pc (s : State) (f : Fault) : (s.faulted f).pc = s.pc := rfl
@[simp] theorem State.faulted_sp (s : State) (f : Fault) : (s.faulted f).sp = s.sp := rfl
@[simp] theorem State.faulted_stack (s : State) (f : Fault) : (s.faulted f).stack = s.stack := rfl
@[simp] theorem State.faulted_dt (s : State) (f : Fault) : (s.faulted f).dt = s.dt := rfl
@[simp] theorem State.faulted_st (s : State) (f : Fault) : (s.faulted f).st = s.st := rfl
@[simp] theorem State.faulted_drawFlag (s : State) (f : Fault) : (s.faulted f).drawFlag = s.drawFlag := rfl
@[simp] theorem State.faulted_keys (s : State) (f : Fault) : (s.faulted f).keys = s.keys := rfl
@[simp] theorem State.faulted_fb (s : State) (f : Fault) : (s.faulted f).fb = s.fb := rfl
@[simp] theorem State.faulted_mem (s : State) (f : Fault) : (s.faulted f).mem = s.mem := rfl
@[simp] theorem State.faulted_outcome (s : State) (f : Fault) : (s.faulted f).outcome = .fault f := rfl
@[simp] theorem State.faulted_sound (s : State) (f : Fault) : (s.faulted f).sound = false := rfl
@[simp] theorem State.faulted_draws (s : State) (f : Fault) : (s.faulted f).draws = s.draws := rfl

/-! `finish` -/

@[simp] theorem State.finish_v (s : State) (p : Word) : (s.finish p).v = s.v := rfl
@[simp] theorem State.finish_index (s : State) (p : Word) : (s.finish p).index = s.index := rfl
@[simp] theorem State.finish_pc (s : State) (p : Word) : (s.finish p).pc = p := rfl
@[simp] theorem State.finish_sp (s : State) (p : Word) : (s.finish p).sp = s.sp := rfl
@[simp] theorem State.finish_stack (s : State) (p : Word) : (s.finish p).stack = s.stack := rfl
@[simp] theorem State.finish_dt (s : State) (p : Word) : (s.finish p).dt = s.dt := rfl
@[simp] theorem State.finish_st (s : State) (p : Word) : (s.finish p).st = s.st := rfl
@[simp] theorem State.finish_drawFlag (s : State) (p : Word) : (s.finish p).drawFlag = s.drawFlag := rfl
@[simp] theorem State.finish_keys (s : State) (p : Word) : (s.finish p).keys = s.keys := rfl
@[simp] theorem State.finish_fb (s : State) (p : Word) : (s.finish p).fb = s.fb := rfl
@[simp] theorem State.finish_mem (s : State) (p : Word) : (s.finish p).mem = s.mem := rfl
@[simp] theorem State.finish_outcome (s : State) (p : Word) : (s.finish p).outcome = .completed := rfl
@[simp] theorem State.finish_sound (s : State) (p : Word) : (s.finish p).sound = s.sound := rfl
@[simp] theorem State.finish_draws (s : State) (p : Word) : (s.finish p).draws = s.draws := rfl

/-! `pushed` -/

@[simp] theorem State.pushed_v (s : State) (w : Word) (h : s.sp.val < 16) : (s.pushed w h).v = s.v := rfl
@[simp] theorem State.pushed_index (s : State) (w : Word) (h : s.sp.val < 16) : (s.pushed w h).index = s.index := rfl
@[simp] theorem State.pushed_pc (s : State) (w : Word) (h : s.sp.val < 16) : (s.pushed w h).pc = s.pc := rfl
@[simp] theorem State.pushed_sp (s : State) (w : Word) (h : s.sp.val < 16) : (s.pushed w h).sp = ⟨s.sp.val + 1, by omega⟩ := rfl
@[simp] theorem State.pushed_stack (s : State) (w : Word) (h : s.sp.val < 16) : (s.pushed w h).stack = s.stack.set s.sp.val w := rfl
@[simp] theorem State.pushed_dt (s : State) (w : Word) (h : s.sp.val < 16) : (s.pushed w h).dt = s.dt := rfl
@[simp] theorem State.pushed_st (s : State) (w : Word) (h : s.sp.val < 16) : (s.pushed w h).st = s.st := rfl
@[simp] theorem State.pushed_drawFlag (s : State) (w : Word) (h : s.sp.val < 16) : (s.pushed w h).drawFlag = s.drawFlag := rfl
@[simp] theorem State.pushed_keys (s : State) (w : Word) (h : s.sp.val < 16) : (s.pushed w h).keys = s.keys := rfl
@[simp] theorem State.pushed_fb (s : State) (w : Word) (h : s.sp.val < 16) : (s.pushed w h).fb = s.fb := rfl
@[simp] theorem State.pushed_mem (s : State) (w : Word) (h : s.sp.val < 16) : (s.pushed w h).mem = s.mem := rfl
@[simp] theorem State.pushed_outcome (s : State) (w : Word) (h : s.sp.val < 16) : (s.pushed w h).outcome = s.outcome := rfl
@[simp] theorem State.pushed_sound (s : State) (w : Word) (h : s.sp.val < 16) : (s.pushed w h).sound = s.sound := rfl
@[simp] theorem State.pushed_draws (s : State) (w : Word) (h : s.sp.val < 16) : (s.pushed w h).draws = s.draws := rfl

/-! `popped` -/

@[simp] theorem State.popped_v (s : State) : (s.popped).v = s.v := rfl
@[simp] theorem State.popped_index (s : State) : (s.popped).index = s.index := rfl
@[simp] theorem State.popped_pc (s : State) : (s.popped).pc = s.pc := rfl
@[simp] theorem State.popped_sp (s : State) : (s.popped).sp = ⟨s.sp.val - 1, by omega⟩ := rfl
@[simp] theorem State.popped_stack (s : State) : (s.popped).stack = s.stack := rfl
@[simp] theorem State.popped_dt (s : State) : (s.popped).dt = s.dt := rfl
@[simp] theorem State.popped_st (s : State) : (s.popped).st = s.st := rfl
@[simp] theorem State.popped_drawFlag (s : State) : (s.popped).drawFlag = s.drawFlag := rfl
@[simp] theorem State.popped_keys (s : State) : (s.popped).keys = s.keys := rfl
@[simp] theorem State.popped_fb (s : State) : (s.popped).fb = s.fb := rfl
@[simp] theorem State.popped_mem (s : State) : (s.popped).mem = s.mem := rfl
@[simp] theorem State.popped_outcome (s : State) : (s.popped).outcome = s.outcome := rfl
@[simp] theorem State.popped_sound (s : State) : (s.popped).sound = s.sound := rfl
@[simp] theorem State.popped_draws (s : State) : (s.popped).draws = s.draws := rfl

/-! `timerPhase` -/

@[simp] theorem timerPhase_v (s : State) : (timerPhase s).v = s.v := rfl
@[simp] theorem timerPhase_index (s : State) : (timerPhase s).index = s.index := rfl
@[simp] theorem timerPhase_pc (s : State) : (timerPhase s).pc = s.pc := rfl
@[simp] theorem timerPhase_sp (s : State) : (timerPhase s).sp = s.sp := rfl
@[simp] theorem timerPhase_stack (s : State) : (timerPhase s).stack = s.stack := rfl
@[simp] theorem timerPhase_dt (s : State) : (timerPhase s).dt = countDown s.dt := rfl
@[simp] theorem timerPhase_st (s : State) : (timerPhase s).st = countDown s.st := rfl
@[simp] theorem timerPhase_drawFlag (s : State) : (timerPhase s).drawFlag = s.drawFlag := rfl
@[simp] theorem timerPhase_keys (s : State) : (timerPhase s).keys = s.keys := rfl
@[simp] theorem timerPhase_fb (s : State) : (timerPhase s).fb = s.fb := rfl
@[simp] theorem timerPhase_mem (s : State) : (timerPhase s).mem = s.mem := rfl
@[simp] theorem timerPhase_outcome (s : State) : (timerPhase s).outcome = s.outcome := rfl
@[simp] theorem timerPhase_sound (s : State) : (timerPhase s).sound = decide (s.st = 1) := rfl
@[simp] theorem timerPhase_draws (s : State) : (timerPhase s).draws = s.draws := rfl

/-! `setKey` -/

@[simp] theorem setKey_v (j : Fin 16) (b : Byte) (s : State) : (setKey j b s).v = s.v := rfl
@[simp] theorem setKey_index (j : Fin 16) (b : Byte) (s : State) : (setKey j b s).index = s.index := rfl
@[simp] theorem setKey_pc (j : Fin 16) (b : Byte) (s : State) : (setKey j b s).pc = s.pc := rfl
@[simp] theorem setKey_sp (j : Fin 16) (b : Byte) (s : State) : (setKey j b s).sp = s.sp := rfl
@[simp] theorem setKey_stack (j : Fin 16) (b : Byte) (s : State) : (setKey j b s).stack = s.stack := rfl
@[simp] theorem setKey_dt (j : Fin 16) (b : Byte) (s : State) : (setKey j b s).dt = s.dt := rfl
@[simp] theorem setKey_st (j : Fin 16) (b : Byte) (s : State) : (setKey j b s).st = s.st := rfl
@[simp] theorem setKey_drawFlag (j : Fin 16) (b : Byte) (s : State) : (setKey j b s).drawFlag = s.drawFlag := rfl
@[simp] theorem setKey_keys (j : Fin 16) (b : Byte) (s : State) : (setKey j b s).keys = s.keys.set j b := rfl
@[simp] theorem setKey_fb (j : Fin 16) (b : Byte) (s : State) : (setKey j b s).fb = s.fb := rfl
@[simp] theorem setKey_mem (j : Fin 16) (b : Byte) (s : State) : (setKey j b s).mem = s.mem := rfl
@[simp] theorem setKey_outcome (j : Fin 16) (b : Byte) (s : State) : (setKey j b s).outcome = s.outcome := rfl
@[simp] theorem setKey_sound (j : Fin 16) (b : Byte) (s : State) : (setKey j b s).sound = s.sound := rfl
@[simp] theorem setKey_draws (j : Fin 16) (b : Byte) (s : State) : (setKey j b s).draws = s.draws := rfl

/-! `consumeDraw` -/

@[simp] theorem consumeDraw_v (s : State) : (consumeDraw s).v = s.v := rfl
@[simp] theorem consumeDraw_index (s : State) : (consumeDraw s).index = s.index := rfl
@[simp] theorem consumeDraw_pc (s : State) : (consumeDraw s).pc = s.pc := rfl
@[simp] theorem consumeDraw_sp (s : State) : (consumeDraw s).sp = s.sp := rfl
@[simp] theorem consumeDraw_stack (s : State) : (consumeDraw s).stack = s.stack := rfl
@[simp] theorem consumeDraw_dt (s : State) : (consumeDraw s).dt = s.dt := rfl
@[simp] theorem consumeDraw_st (s : State) : (consumeDraw s).st = s.st := rfl
@[simp] theorem consumeDraw_drawFlag (s : State) : (consumeDraw s).drawFlag = false := rfl
@[simp] theorem consumeDraw_keys (s : State) : (consumeDraw s).keys = s.keys := rfl
@[simp] theorem consumeDraw_fb (s : State) : (consumeDraw s).fb = s.fb := rfl
@[simp] theorem consumeDraw_mem (s : State) : (consumeDraw s).mem = s.mem := rfl
@[simp] theorem consumeDraw_outcome (s : State) : (consumeDraw s).outcome = s.outcome := rfl
@[simp] theorem consumeDraw_sound (s : State) : (consumeDraw s).sound = s.sound := rfl
@[simp] theorem consumeDraw_draws (s : State) : (consumeDraw s).draws = s.draws := rfl

/-! Reading a register after an update -/

@[simp] theorem State.getV_setV (s : State) (x : Reg) (b : Byte) (k : Reg) :
    (s.setV x b).getV k = if x = k then b else s.getV k := by
  simp only [State.getV, State.setV, Fin.getElem_fin, Vector.getElem_set, Fin.ext_iff]

@[simp] theorem State.getV_setIndex (s : State) (w : Word) (k : Reg) : (s.setIndex w).getV k = s.getV k := rfl
@[simp] theorem State.getV_setDT (s : State) (b : Byte) (k : Reg) : (s.setDT b).getV k = s.getV k := rfl
@[simp] theorem State.getV_setST (s : State) (b : Byte) (k : Reg) : (s.setST b).getV k = s.getV k := rfl
@[simp] theorem State.getV_setMem (s : State) (m : Memory) (k : Reg) : (s.setMem m).getV k = s.getV k := rfl
@[simp] theorem State.getV_draw (s : State) (f : Framebuffer) (k : Reg) : (s.draw f).getV k = s.getV k := rfl
@[simp] theorem State.getV_nextDraw (s : State) (k : Reg) : (s.nextDraw).getV k = s.getV k := rfl
@[simp] theorem State.getV_report (s : State) (r : Report) (k : Reg) : (s.report r).getV k = s.getV k := rfl
@[simp] theorem State.getV_faulted (s : State) (f : Fault) (k : Reg) : (s.faulted f).getV k = s.getV k := rfl
@[simp] theorem State.getV_finish (s : State) (p : Word) (k : Reg) : (s.finish p).getV k = s.getV k := rfl
@[simp] theorem State.getV_pushed (s : State) (w : Word) (h : s.sp.val < 16) (k : Reg) : (s.pushed w h).getV k = s.getV k := rfl
@[simp] theorem State.getV_popped (s : State) (k : Reg) : (s.popped).getV k = s.getV k := rfl
@[simp] theorem getV_timerPhase (s : State) (k : Reg) : (timerPhase s).getV k = s.getV k := rfl
@[simp] theorem getV_setKey (j : Fin 16) (b : Byte) (s : State) (k : Reg) : (setKey j b s).getV k = s.getV k := rfl
@[simp] theorem getV_consumeDraw (s : State) (k : Reg) : (consumeDraw s).getV k = s.getV k := rfl
@[simp] theorem State.getV_setRegs (s : State) (w : Vector Byte 16) (k : Reg) : (s.setRegs w).getV k = w[k] := rfl

end Sys2Proof.Machine
end

