-- ==== Sys2Proof/Laws/Ops.lean ====
section
/-! SUPPORT. One lemma per shared operation: everything it can answer. Callers cite these and do not unfold the operation. -/

namespace Sys2Proof.Machine

/-! ### How an arm ends -/

@[simp] theorem complete_eq (p : Word) (s : State) : complete p s = .next (s.finish p) := rfl
@[simp] theorem advance_eq (s : State) : advance s = .next (s.finish (s.pc + 2)) := rfl
@[simp] theorem skipIf_eq (c : Bool) (s : State) :
    skipIf c s = .next (s.finish (if c then s.pc + 4 else s.pc + 2)) := rfl
@[simp] theorem wait_eq (s : State) : wait s = .next (s.report .waiting) := rfl
@[simp] theorem raise_eq (f : Fault) : raise f = .fault f := rfl
@[simp] theorem unknownArm_eq (w : Word) (s : State) : unknownArm w s = .next (s.report (.unknown w)) := rfl

@[simp] theorem guarded_none (k : StepResult) : guarded none k = k := rfl
@[simp] theorem guarded_some (f : Fault) (k : StepResult) : guarded (some f) k = .fault f := rfl

theorem guarded_next {c : Option Fault} {k : StepResult} {t : State} :
    guarded c k = .next t ↔ c = none ∧ k = .next t := by
  cases c <;> simp

theorem guarded_fault {c : Option Fault} {k : StepResult} {f : Fault} :
    guarded c k = .fault f ↔ c = some f ∨ (c = none ∧ k = .fault f) := by
  cases c <;> simp

theorem guarded_refused {c : Option Fault} {k : StepResult} {r : Refusal} :
    guarded c k = .refused r ↔ c = none ∧ k = .refused r := by
  cases c <;> simp

@[simp] theorem afterArm_next (s : State) : afterArm (.next s) = .next (timerPhase s) := rfl
@[simp] theorem afterArm_fault (f : Fault) : afterArm (.fault f) = .fault f := rfl
@[simp] theorem afterArm_refused (r : Refusal) : afterArm (.refused r) = .refused r := rfl

theorem afterArm_eq_next {a : StepResult} {t : State} :
    afterArm a = .next t ↔ ∃ u, a = .next u ∧ t = timerPhase u := by
  cases a <;> simp [eq_comm]

theorem afterArm_eq_fault {a : StepResult} {f : Fault} : afterArm a = .fault f ↔ a = .fault f := by
  cases a <;> simp

theorem afterArm_eq_refused {a : StepResult} {r : Refusal} : afterArm a = .refused r ↔ a = .refused r := by
  cases a <;> simp

/-! ### The stack -/

theorem push_ok {s : State} (w : Word) (h : s.sp.val < 16) : push w s = .ok (s.pushed w h) := by
  rw [push, dif_pos h]

theorem push_full {s : State} (w : Word) (h : ¬ s.sp.val < 16) : push w s = .error (.stackFault .overflow s.pc) := by
  rw [push, dif_neg h]

theorem pop_ok {s : State} (h : s.sp.val ≠ 0) : pop s = .ok (topOfStack s, s.popped) := by
  rw [pop, if_neg h]

theorem pop_empty {s : State} (h : s.sp.val = 0) : pop s = .error (.stackFault .underflow s.pc) := by
  rw [pop, if_pos h]

/-! ### Registers -/

@[simp] theorem State.getV_setResultFlag (s : State) (x : Reg) (r f : Byte) (k : Reg) :
    (s.setResultFlag x r f).getV k = if k = vf then f else if x = k then r else s.getV k := by
  rw [State.setResultFlag, State.getV_setV, State.getV_setV]
  by_cases h : k = vf
  · rw [if_pos h.symm, if_pos h]
  · rw [if_neg (Ne.symm h), if_neg h]

/-- The block load writes registers 0 to `n - 1` from rising addresses (R165). -/
theorem getElem_loadRegs (m : Memory) (a n : Nat) (v : Vector Byte 16) (k : Nat) (hk : k < 16) :
    (loadRegs m a n v)[k] = if k < n then Memory.read m (a + k) else v[k] := by
  induction n with
  | zero => simp [loadRegs]
  | succ n ih =>
    rw [loadRegs, Vector.getElem_setIfInBounds]
    by_cases h : n = k
    · subst h; simp
    · rw [if_neg h, ih]
      by_cases h' : k < n
      · simp [h', show k < n + 1 by omega]
      · simp [h', show ¬ k < n + 1 by omega]

@[simp] theorem length_regBlock (s : State) (x : Reg) : (regBlock s x).length = x.val + 1 := by
  simp [regBlock]

theorem getElem_regBlock (s : State) (x : Reg) (k : Nat) (hk : k < (regBlock s x).length) :
    (regBlock s x)[k] = s.v[k]'(by simp at hk; omega) := by
  simp [regBlock]

@[simp] theorem length_bcdDigits (b : Byte) : (bcdDigits b).length = 3 := rfl

/-! ### Keys -/

theorem keyPressed_ok {k : Byte} {s : State} (h : k.toNat < 16) :
    keyPressed k s = .ok (decide (s.keys[k.toNat] ≠ 0)) := by
  rw [keyPressed, dif_pos h]

theorem keyPressed_fault {k : Byte} {s : State} (h : ¬ k.toNat < 16) : keyPressed k s = .error (.keyFault k) := by
  rw [keyPressed, dif_neg h]

/-- The scan answers the smallest pressed key (R203). -/
theorem firstKey_some {s : State} {k : Nat} :
    firstKey s = some k ↔ ∃ h : k < 16, s.keys[k] ≠ 0 ∧ ∀ j (hj : j < k), s.keys[j] = 0 := by
  unfold firstKey
  rw [List.findIdx?_eq_some_iff_getElem]
  simp

/-- The scan answers nothing exactly when no key is pressed (R204). -/
theorem firstKey_none {s : State} : firstKey s = none ↔ ∀ k : Fin 16, s.keys[k] = 0 := by
  unfold firstKey
  rw [List.findIdx?_eq_none_iff]
  constructor
  · intro h k
    have := h s.keys[k] (by simp)
    simpa using this
  · intro h b hb
    obtain ⟨i, hi, rfl⟩ := List.getElem_of_mem hb
    simpa using h ⟨i, by simpa using hi⟩

/-! ### The timers -/

/-- A timer falls by one, down to 0 (R236). -/
theorem toNat_countDown (t : Byte) : (countDown t).toNat = t.toNat - 1 := by
  rw [countDown]
  split
  · simp_all
  · bv_omega

theorem countDown_zero : countDown 0 = 0 := rfl

theorem countDown_of_ne {t : Byte} (h : t ≠ 0) : countDown t = t - 1 := if_neg h

/-! ### Fetch -/

/-- The fetch reads the big-endian word at `pc` when both bytes exist (R56). -/
theorem fetch_ok {s : State} (h : s.pc.toNat ≤ 0xFFE) :
    fetch s = .ok (joinBytes (Memory.read s.mem s.pc.toNat) (Memory.read s.mem (s.pc.toNat + 1))) := by
  rw [fetch, memRead_ok (by omega), memRead_ok (by omega)]

/-- Otherwise it faults with the lowest address that does not exist (R56). -/
theorem fetch_fault {s : State} (h : 0xFFE < s.pc.toNat) :
    fetch s = .error (.memoryFault (max s.pc.toNat 4096)) := by
  by_cases h' : s.pc.toNat ≤ 0xFFF
  · rw [fetch, memRead_ok h', memRead_fault (by omega), show max s.pc.toNat 4096 = s.pc.toNat + 1 by omega]
  · rw [fetch, memRead_fault (by omega), show max s.pc.toNat 4096 = s.pc.toNat by omega]

theorem fetch_eq_ok {s : State} {w : Word} :
    fetch s = .ok w ↔ s.pc.toNat ≤ 0xFFE ∧
      w = joinBytes (Memory.read s.mem s.pc.toNat) (Memory.read s.mem (s.pc.toNat + 1)) := by
  by_cases h : s.pc.toNat ≤ 0xFFE
  · rw [fetch_ok h]; simp [h, eq_comm]
  · rw [fetch_fault (by omega)]; simp [h]

/-- A word stored where the fetch reads is the word fetched next. -/
theorem fetch_storeWordAtPc {s : State} (w : Word) (hm : Memory.wf s.mem = true) (h : s.pc.toNat ≤ 0xFFE) :
    fetch (storeWordAtPc s w) = .ok w := by
  have hlen : (wordBytes w).length = 2 := rfl
  have h0 := Memory.read_writeBlock_inside (bs := wordBytes w) hm (a := s.pc.toNat) (by omega) 0 (by omega)
  have h1 := Memory.read_writeBlock_inside (bs := wordBytes w) hm (a := s.pc.toNat) (by omega) 1 (by omega)
  rw [fetch_eq_ok]
  refine ⟨h, ?_⟩
  simp only [storeWordAtPc, State.setMem_mem, State.setMem_pc]
  rw [Nat.add_zero] at h0
  rw [h0, h1]
  exact (joinBytes_high_low w).symm

end Sys2Proof.Machine
end

