-- ==== Sys2Proof/Laws/Step.lean ====
section
/-! SUPPORT. What each arm of `exec`, and one step, can answer: the inversion lemmas that whole-machine claims cite. -/

namespace Sys2Proof.Machine

/-! ### The arms that always complete -/

theorem exec_cls (s : State) : exec .cls s = .next ((s.draw Framebuffer.clear).finish (s.pc + 2)) := rfl
theorem exec_jp (nnn : Addr12) (s : State) : exec (.jp nnn) s = .next (s.finish (addrOperand nnn)) := rfl
theorem exec_jpV0 (nnn : Addr12) (s : State) : exec (.jpV0 nnn) s = .next (s.finish (computedTarget nnn s)) := rfl
theorem exec_seVxNN (x : Reg) (nn : Byte) (s : State) :
    exec (.seVxNN x nn) s = .next (s.finish (if s.getV x = nn then s.pc + 4 else s.pc + 2)) := by
  simp [exec, execSeVxNN]
theorem exec_sneVxNN (x : Reg) (nn : Byte) (s : State) :
    exec (.sneVxNN x nn) s = .next (s.finish (if s.getV x ≠ nn then s.pc + 4 else s.pc + 2)) := by
  simp [exec, execSneVxNN]
theorem exec_seVxVy (x y : Reg) (s : State) :
    exec (.seVxVy x y) s = .next (s.finish (if s.getV x = s.getV y then s.pc + 4 else s.pc + 2)) := by
  simp [exec, execSeVxVy]
theorem exec_sneVxVy (x y : Reg) (s : State) :
    exec (.sneVxVy x y) s = .next (s.finish (if s.getV x ≠ s.getV y then s.pc + 4 else s.pc + 2)) := by
  simp [exec, execSneVxVy]
theorem exec_ldVxNN (x : Reg) (nn : Byte) (s : State) :
    exec (.ldVxNN x nn) s = .next ((s.setV x nn).finish (s.pc + 2)) := rfl
theorem exec_addVxNN (x : Reg) (nn : Byte) (s : State) :
    exec (.addVxNN x nn) s = .next ((s.setV x (s.getV x + nn)).finish (s.pc + 2)) := rfl
theorem exec_ldVxVy (x y : Reg) (s : State) :
    exec (.ldVxVy x y) s = .next ((s.setV x (s.getV y)).finish (s.pc + 2)) := rfl
theorem exec_orVxVy (x y : Reg) (s : State) :
    exec (.orVxVy x y) s = .next ((s.setV x (s.getV x ||| s.getV y)).finish (s.pc + 2)) := rfl
theorem exec_andVxVy (x y : Reg) (s : State) :
    exec (.andVxVy x y) s = .next ((s.setV x (s.getV x &&& s.getV y)).finish (s.pc + 2)) := rfl
theorem exec_xorVxVy (x y : Reg) (s : State) :
    exec (.xorVxVy x y) s = .next ((s.setV x (s.getV x ^^^ s.getV y)).finish (s.pc + 2)) := rfl
theorem exec_addVxVy (x y : Reg) (s : State) :
    exec (.addVxVy x y) s =
      .next ((s.setResultFlag x (s.getV x + s.getV y) (carryFlag (s.getV x) (s.getV y))).finish (s.pc + 2)) := rfl
theorem exec_subVxVy (x y : Reg) (s : State) :
    exec (.subVxVy x y) s =
      .next ((s.setResultFlag x (s.getV x - s.getV y) (noBorrowFlag (s.getV x) (s.getV y))).finish (s.pc + 2)) := rfl
theorem exec_shrVx (x y : Reg) (s : State) :
    exec (.shrVx x y) s =
      .next ((s.setResultFlag x (s.getV x >>> 1) (shiftedOutRight (s.getV x))).finish (s.pc + 2)) := rfl
theorem exec_subnVxVy (x y : Reg) (s : State) :
    exec (.subnVxVy x y) s =
      .next ((s.setResultFlag x (s.getV y - s.getV x) (noBorrowFlag (s.getV y) (s.getV x))).finish (s.pc + 2)) := rfl
theorem exec_shlVx (x y : Reg) (s : State) :
    exec (.shlVx x y) s =
      .next ((s.setResultFlag x (s.getV x <<< 1) (shiftedOutLeft (s.getV x))).finish (s.pc + 2)) := rfl
theorem exec_rndVxNN (x : Reg) (nn : Byte) (s : State) :
    exec (.rndVxNN x nn) s = .next ((s.nextDraw.setV x (s.randomByte &&& nn)).finish (s.pc + 2)) := rfl
theorem exec_ldINNN (nnn : Addr12) (s : State) :
    exec (.ldINNN nnn) s = .next ((s.setIndex (addrOperand nnn)).finish (s.pc + 2)) := rfl
theorem exec_addIVx (x : Reg) (s : State) :
    exec (.addIVx x) s =
      .next (((s.setIndex (BitVec.ofNat 16 (indexSum s x))).setV vf
        (indexOverflowFlag (indexSum s x))).finish (s.pc + 2)) := rfl
theorem exec_ldFVx (x : Reg) (s : State) :
    exec (.ldFVx x) s = .next ((s.setIndex (glyphAddr (s.getV x))).finish (s.pc + 2)) := rfl
theorem exec_ldVxDT (x : Reg) (s : State) :
    exec (.ldVxDT x) s = .next ((s.setV x s.dt).finish (s.pc + 2)) := rfl
theorem exec_ldDTVx (x : Reg) (s : State) :
    exec (.ldDTVx x) s = .next ((s.setDT (s.getV x)).finish (s.pc + 2)) := rfl
theorem exec_ldSTVx (x : Reg) (s : State) :
    exec (.ldSTVx x) s = .next ((s.setST (s.getV x)).finish (s.pc + 2)) := rfl

/-! ### The arms that can fault or wait -/

theorem exec_ret (s : State) :
    exec .ret s = if s.sp.val = 0 then .fault (.stackFault .underflow s.pc)
      else .next (s.popped.finish (topOfStack s + 2)) := by
  by_cases h : s.sp.val = 0 <;> simp [exec, execRet, pop, h]

theorem exec_call (nnn : Addr12) (s : State) :
    exec (.call nnn) s = if h : s.sp.val < 16 then .next ((s.pushed s.pc h).finish (addrOperand nnn))
      else .fault (.stackFault .overflow s.pc) := by
  by_cases h : s.sp.val < 16
  · simp [exec, execCall, push_ok, h]
  · simp [exec, execCall, push_full, h]

theorem exec_skp (x : Reg) (s : State) :
    exec (.skp x) s = if h : (s.getV x).toNat < 16 then
        .next (s.finish (if s.keys[(s.getV x).toNat] ≠ 0 then s.pc + 4 else s.pc + 2))
      else .fault (.keyFault (s.getV x)) := by
  by_cases h : (s.getV x).toNat < 16
  · simp [exec, execSkp, keyPressed_ok, h]
  · simp [exec, execSkp, keyPressed_fault h, h]

theorem exec_sknp (x : Reg) (s : State) :
    exec (.sknp x) s = if h : (s.getV x).toNat < 16 then
        .next (s.finish (if s.keys[(s.getV x).toNat] = 0 then s.pc + 4 else s.pc + 2))
      else .fault (.keyFault (s.getV x)) := by
  by_cases h : (s.getV x).toNat < 16
  · simp [exec, execSknp, keyPressed_ok, h]
  · simp [exec, execSknp, keyPressed_fault h, h]

theorem exec_ldVxK (x : Reg) (s : State) :
    exec (.ldVxK x) s = match firstKey s with
      | some k => .next ((s.setV x (BitVec.ofNat 8 k)).finish (s.pc + 2))
      | none => .next (s.report .waiting) := by
  cases h : firstKey s <;> simp [exec, execLdVxK, h]

theorem exec_ldBVx (x : Reg) (s : State) :
    exec (.ldBVx x) s = guarded (checkRange (indexAddr s 0) 3)
      (.next ((s.setMem (Memory.writeBlock s.mem (indexAddr s 0) (bcdDigits (s.getV x)))).finish (s.pc + 2))) := rfl

theorem exec_ldMemVx (x : Reg) (s : State) :
    exec (.ldMemVx x) s = guarded (checkRange (indexAddr s 0) (x.val + 1))
      (.next (((s.setMem (Memory.writeBlock s.mem (indexAddr s 0) (regBlock s x))).setIndex
        (BitVec.ofNat 16 (indexAddr s (x.val + 1)))).finish (s.pc + 2))) := rfl

theorem exec_ldVxMem (x : Reg) (s : State) :
    exec (.ldVxMem x) s = guarded (checkRange (indexAddr s 0) (x.val + 1))
      (.next (((s.setRegs (loadRegs s.mem (indexAddr s 0) (x.val + 1) s.v)).setIndex
        (BitVec.ofNat 16 (indexAddr s (x.val + 1)))).finish (s.pc + 2))) := rfl

theorem exec_drw (x y : Reg) (n : Nat) (s : State) :
    exec (.drw x y n) s = guarded (checkRange (indexAddr s 0) n)
      (guarded (checkPixels (drwPixels x y n s))
        (.next ((blitState (drwPixels x y n s) s).finish (s.pc + 2)))) := rfl

/-- No arm refuses. -/
theorem exec_ne_refused (i : Instr) (s : State) (r : Refusal) : exec i s ≠ .refused r := by
  cases i
  case ret => rw [exec_ret]; split <;> simp
  case call => rw [exec_call]; split <;> simp
  case skp => rw [exec_skp]; split <;> simp
  case sknp => rw [exec_sknp]; split <;> simp
  case ldVxK => rw [exec_ldVxK]; split <;> simp
  case ldBVx => rw [exec_ldBVx]; simp [guarded_refused]
  case ldMemVx => rw [exec_ldMemVx]; simp [guarded_refused]
  case ldVxMem => rw [exec_ldVxMem]; simp [guarded_refused]
  case drw => rw [exec_drw]; simp [guarded_refused]
  all_goals simp [exec_seVxNN, exec_sneVxNN, exec_seVxVy, exec_sneVxVy, exec_cls, exec_jp, exec_jpV0, exec_ldVxNN,
    exec_addVxNN, exec_ldVxVy, exec_orVxVy, exec_andVxVy, exec_xorVxVy, exec_addVxVy, exec_subVxVy, exec_shrVx,
    exec_subnVxVy, exec_shlVx, exec_ldINNN, exec_rndVxNN, exec_ldVxDT, exec_ldDTVx, exec_ldSTVx, exec_addIVx, exec_ldFVx]

/-! ### One step -/

/-- The decoder names the word it does not know. -/
theorem decode_unknown_eq {w u : Word} (h : decode w = .unknown u) : u = w := by
  unfold decode at h
  split at h <;> first | (cases h; done) | (cases h; rfl) | skip
  · unfold decodeGroup0 at h; split at h <;> simp_all
  · unfold decodeGroup8 at h; split at h <;> simp_all
  · unfold decodeGroupE at h; split at h <;> simp_all
  · unfold decodeGroupF at h; split at h <;> simp_all

theorem step_fetch_fault {s : State} {f : Fault} (h : fetch s = .error f) : step s = .fault f := by
  simp [step, h]

theorem step_unknown {s : State} {w u : Word} (h : fetch s = .ok w) (hd : decode w = .unknown u) :
    step s = .next (timerPhase (s.report (.unknown u))) := by
  simp [step, h, hd]

theorem step_instr {s : State} {w : Word} {i : Instr} (h : fetch s = .ok w) (hd : decode w = .instr i) :
    step s = afterArm (exec i s) := by
  simp [step, h, hd]

/-- What a step that ends in a next state did: the unknown arm or one arm, and then the timer phase (R90). -/
theorem step_next {s t : State} (h : step s = .next t) : ∃ w u, fetch s = .ok w ∧ t = timerPhase u ∧
    ((decode w = .unknown w ∧ u = s.report (.unknown w)) ∨ ∃ i, decode w = .instr i ∧ exec i s = .next u) := by
  cases hf : fetch s with
  | error f => rw [step_fetch_fault hf] at h; cases h
  | ok w =>
    cases hd : decode w with
    | unknown u =>
      rw [step_unknown hf hd] at h
      cases h
      cases decode_unknown_eq hd
      exact ⟨_, _, rfl, rfl, .inl ⟨hd, rfl⟩⟩
    | instr i =>
      rw [step_instr hf hd] at h
      obtain ⟨u, hu, ht⟩ := afterArm_eq_next.1 h
      exact ⟨w, u, rfl, ht, .inr ⟨i, hd, hu⟩⟩

/-- What a step that ends in a fault did: the fetch faulted, or one arm did (R229). -/
theorem step_fault {s : State} {f : Fault} (h : step s = .fault f) :
    fetch s = .error f ∨ ∃ w i, fetch s = .ok w ∧ decode w = .instr i ∧ exec i s = .fault f := by
  cases hf : fetch s with
  | error g => rw [step_fetch_fault hf] at h; cases h; exact .inl rfl
  | ok w =>
    cases hd : decode w with
    | unknown u => rw [step_unknown hf hd] at h; cases h
    | instr i =>
      rw [step_instr hf hd] at h
      exact .inr ⟨w, i, rfl, hd, afterArm_eq_fault.1 h⟩

theorem step_ne_refused (s : State) (r : Refusal) : step s ≠ .refused r := by
  intro h
  cases hf : fetch s with
  | error g => rw [step_fetch_fault hf] at h; cases h
  | ok w =>
    cases hd : decode w with
    | unknown u => rw [step_unknown hf hd] at h; cases h
    | instr i =>
      rw [step_instr hf hd] at h
      exact exec_ne_refused i s r (afterArm_eq_refused.1 h)

end Sys2Proof.Machine
end

