-- ==== Sys2Proof/Laws/Claims.lean ====
section
/-! SUPPORT. The laws of the terms that claims are stated in (Sys2Proof/Safety.lean): rows of the opcode table, frames, set
pixels and runs. -/

namespace Sys2Proof.Machine

/-! ### Rows of the opcode table -/

/-- A row whose mask covers `op` only. -/
theorem encodes_of_op {m : Word} {f : Word → Instr} {n : Nat} (hn : fieldOp m = n)
    (hd : ∀ w, fieldOp w = n → decode w = .instr (f w)) : Encodes 0xF000 m f :=
  fun w h => hd w ((fieldOp_of_mask h (by decide)).trans hn)

/-- A row whose mask covers `op` and the low nibble. -/
theorem encodes_of_op_nibble {m : Word} {f : Word → Instr} {o n : Nat} (ho : fieldOp m = o) (hn : fieldN m = n)
    (hd : ∀ w, fieldOp w = o → fieldN w = n → decode w = .instr (f w)) : Encodes 0xF00F m f :=
  fun w h => hd w ((fieldOp_of_mask h (by decide)).trans ho) ((fieldN_of_mask h (by decide)).trans hn)

/-- A row whose mask covers `op` and the low byte. -/
theorem encodes_of_op_byte {m : Word} {f : Word → Instr} {o : Nat} {n : Byte} (ho : fieldOp m = o) (hn : fieldNN m = n)
    (hd : ∀ w, fieldOp w = o → fieldNN w = n → decode w = .instr (f w)) : Encodes 0xF0FF m f :=
  fun w h => hd w ((fieldOp_of_mask h (by decide)).trans ho) ((fieldNN_of_mask h (by decide)).trans hn)

/-! ### Frames -/

theorem Part.same_trans {p : Part} {s t u : State} (h : p.same s t) (h' : p.same t u) : p.same s u := by
  cases p
  case fb => exact fun x y => (h' x y).trans (h x y)
  case mem => exact fun a => (h' a).trans (h a)
  all_goals exact Eq.trans h' h

/-- Two frames compose to the frame of what either of them may write. -/
theorem KeepsExcept.trans {r r' : List Reg} {p p' : List Part} {s t u : State} (h : KeepsExcept r p s t)
    (h' : KeepsExcept r' p' t u) : KeepsExcept (r ++ r') (p ++ p') s u where
  regs k hk := by
    rw [List.mem_append, not_or] at hk
    exact (h'.regs k hk.2).trans (h.regs k hk.1)
  parts q hq := by
    rw [List.mem_append, not_or] at hq
    exact Part.same_trans (h.parts q hq.1) (h'.parts q hq.2)

/-- A fault changes the recorded outputs only (R226). -/
theorem keepsExcept_faulted (s : State) (f : Fault) : KeepsExcept [] [.sound] s (s.faulted f) where
  regs _ _ := rfl
  parts p _ := by cases p <;> simp_all [Part.same]

/-- The timer phase writes the timers and the sound trigger only (R236). -/
theorem keepsExcept_timerPhase (s : State) : KeepsExcept [] [.dt, .st, .sound] s (timerPhase s) where
  regs _ _ := rfl
  parts p hp := by cases p <;> simp_all [Part.same]

/-! ### Sprites -/

/-- The pixels DXYN goes through are the set pixels of R181. -/
theorem mem_drwPixels {s : State} {x y : Reg} {n a b : Nat} :
    (a, b) ∈ drwPixels x y n s ↔ SetPixel s x y n a b := by
  simp only [drwPixels, mem_spritePixels, SetPixel, Prod.mk.injEq, indexAddr, Nat.add_zero]

theorem nodup_drwPixels (x y : Reg) (n : Nat) (s : State) : (drwPixels x y n s).Nodup := nodup_spritePixels ..

/-- Every pixel is on the grid (R182). -/
theorem onGrid_drwPixels {s : State} {x y : Reg} {n : Nat} :
    OnGrid (drwPixels x y n s) ↔ ∀ column row, SetPixel s x y n column row → column ≤ 63 ∧ row ≤ 31 := by
  constructor
  · intro h c r hp
    have := h (c, r) (mem_drwPixels.2 hp)
    simp at this
    omega
  · rintro h ⟨c, r⟩ hp
    have := h c r (mem_drwPixels.1 hp)
    simp
    omega

/-! ### Runs and loads -/

theorem run_next {k : Nat} {s t : State} (h : step s = .next t) :
    Sys2Proof.core.run (k + 1) s = Sys2Proof.core.run k t := by
  have h' : Sys2Proof.core.step s = .next t := h
  have unroll : ∀ (M : Host.Core) (s t : M.State), M.step s = .next t → M.run (k + 1) s = M.run k t := by
    intro M s t h
    rw [Host.Core.run, h]
  exact unroll Sys2Proof.core s t h'

theorem run_fault {k : Nat} {s : State} {f : Fault} (h : step s = .fault f) :
    Sys2Proof.core.run (k + 1) s = .fault f := by
  have unroll : ∀ (M : Host.Core) (s : M.State) (f : M.Fault), M.step s = .fault f → M.run (k + 1) s = .fault f := by
    intro M s f h
    rw [Host.Core.run, h]
  exact unroll Sys2Proof.core s f h

/-- `load` accepts a program of at most 3584 bytes (R260, R262). -/
theorem load_ok (font : Font) {rom : List Byte} (s : State) (h : rom.length ≤ 3584) :
    load font rom s = .next { loadedState font rom with draws := s.draws } := by
  simp [load, romOk, Config.romMax, h]

/-- `load` refuses a longer one (R227). -/
theorem load_too_large (font : Font) {rom : List Byte} (s : State) (h : 3584 < rom.length) :
    load font rom s = .fault (.romTooLarge rom.length) := by
  simp [load, romOk, Config.romMax, show ¬ rom.length ≤ 3584 by omega]

/-- The reset state is the reset state of the engine with the default `FONT` (R39, R266). -/
theorem resetWith_defaultFont : State.resetWith defaultFont = State.reset := by
  have h : loadedMemory defaultFont [] = [] := by decide
  simp [State.resetWith, loadedState, h, State.setMem, State.reset]

/-- What an instruction that runs at `s` did in a step that ended in a next state. -/
theorem exec_of_runsAt {s t : State} {i : Instr} (hr : RunsAt s i) (h : step s = .next t) :
    ∃ u, exec i s = .next u ∧ t = timerPhase u := by
  obtain ⟨w, hf, hd⟩ := hr
  rw [step_instr hf hd] at h
  exact afterArm_eq_next.1 h

/-- What `transact` gives the host in terms of what `step` answered (R90, R99, R226). -/
theorem transact_step_next {s t : State} (font : Font) (h : step s = .next t) :
    transact font .step s = (t, .stepped t.outcome t.sound) := by
  simp [transact, h, settleStep]
theorem transact_step_fault {s : State} {f : Fault} (font : Font) (h : step s = .fault f) :
    transact font .step s = (s.faulted f, .stepped (.fault f) false) := by
  simp [transact, h, settleStep]

/-- What `transact` gives the host in terms of the program's length (R227, R260). -/
theorem transact_load_ok (font : Font) {rom : List Byte} (s : State) (h : rom.length ≤ 3584) :
    transact font (.load rom) s = ({ loadedState font rom with draws := s.draws }, .loadReturned .loaded) := by
  simp only [transact, load_ok font s h, settleLoad]; rfl
theorem transact_load_too_large (font : Font) {rom : List Byte} (s : State) (h : 3584 < rom.length) :
    transact font (.load rom) s = (s, .loadReturned (.fault (.romTooLarge rom.length))) := by
  simp [transact, load_too_large font s h, settleLoad]

end Sys2Proof.Machine
end

