-- ==== Sys2Proof/Laws/PerInstr.lean ====
section
/-! SUPPORT. The families of statements made per instruction (LAWS.json). `EncodesToRow`: the encoder's word of a well-formed
instruction selects the instruction's own row of the opcode table (30_encoding.md R74, R83). -/

namespace Sys2Proof

/-! ### A layout under the masks of R74 -/

theorem encodeA_and_F000 (op : BitVec 4) (nnn : Addr12) : encodeA op nnn &&& 0xF000 = op ++ 0#12 := by
  have h : (0xF000 : Word) = 0xF#4 ++ 0#12 := rfl
  rw [h]
  refine BitVec.and_append.trans ?_
  rw [BitVec.and_zero, show (0xF#4) = BitVec.allOnes 4 from rfl, BitVec.and_allOnes]

theorem encodeXK_eq_encodeA (op : BitVec 4) (x : Reg) (k : Byte) :
    encodeXK op x k = encodeA op (BitVec.ofNat 4 x.val ++ k) := by
  simp only [encodeXK, encodeA]
  exact BitVec.append_assoc

theorem encodeXK_and_F000 (op : BitVec 4) (x : Reg) (k : Byte) : encodeXK op x k &&& 0xF000 = op ++ 0#12 := by
  rw [encodeXK_eq_encodeA, encodeA_and_F000]

theorem encodeXYN_and_F000 (op : BitVec 4) (x y : Reg) (n : BitVec 4) :
    encodeXYN op x y n &&& 0xF000 = op ++ 0#12 := by
  rw [encodeXYN_eq, encodeXK_and_F000]

theorem encodeXK_and_F0FF (op : BitVec 4) (x : Reg) (k : Byte) : encodeXK op x k &&& 0xF0FF = op ++ 0#4 ++ k := by
  have h : (0xF0FF : Word) = 0xF#4 ++ 0#4 ++ 0xFF#8 := rfl
  rw [h]
  refine BitVec.and_append.trans ?_
  rw [show (0xFF#8) = BitVec.allOnes 8 from rfl, BitVec.and_allOnes]
  refine congrArg (· ++ k) (BitVec.and_append.trans ?_)
  rw [BitVec.and_zero, show (0xF#4) = BitVec.allOnes 4 from rfl, BitVec.and_allOnes]

theorem encodeXYN_and_F00F (op : BitVec 4) (x y : Reg) (n : BitVec 4) :
    encodeXYN op x y n &&& 0xF00F = op ++ 0#8 ++ n := by
  have h : (0xF00F : Word) = 0xF#4 ++ 0#4 ++ 0#4 ++ 0xF#4 := rfl
  rw [h]
  refine BitVec.and_append.trans ?_
  rw [show (0xF#4) = BitVec.allOnes 4 from rfl, BitVec.and_allOnes]
  refine congrArg (· ++ n) (BitVec.and_append.trans ?_)
  rw [BitVec.and_zero]
  refine (congrArg (· ++ 0#4) (BitVec.and_append.trans (by rw [BitVec.and_zero, BitVec.and_allOnes]))).trans ?_
  exact BitVec.append_assoc

namespace Laws.EncodesToRow

/-- The word of a well-formed instruction selects the instruction's row. -/
def Statement (i : Instr) : Prop :=
  i.wf = true → ∃ r, opcodeTable[rowIndex i]? = some r ∧ r.selects (encode i) = true

/-- How a lemma of the family closes: the row, and what the row's mask leaves of the word. -/
theorem of_row {i : Instr} (r : OpcodeRow) (hr : opcodeTable[rowIndex i]? = some r)
    (h : encode i &&& r.mask = r.matchWord) : Statement i :=
  fun _ => ⟨r, hr, beq_iff_eq.2 h⟩

theorem cls : Statement (.cls) := of_row ⟨"00E0", 0x00E0, 0xF0FF⟩ rfl rfl
theorem ret : Statement (.ret) := of_row ⟨"00EE", 0x00EE, 0xF0FF⟩ rfl rfl
theorem jp (nnn : Addr12) : Statement (.jp nnn) := of_row ⟨"1NNN", 0x1000, 0xF000⟩ rfl (encodeA_and_F000 ..)
theorem call (nnn : Addr12) : Statement (.call nnn) := of_row ⟨"2NNN", 0x2000, 0xF000⟩ rfl (encodeA_and_F000 ..)
theorem seVxNN (x : Reg) (nn : Byte) : Statement (.seVxNN x nn) :=
  of_row ⟨"3XNN", 0x3000, 0xF000⟩ rfl (encodeXK_and_F000 ..)
theorem sneVxNN (x : Reg) (nn : Byte) : Statement (.sneVxNN x nn) :=
  of_row ⟨"4XNN", 0x4000, 0xF000⟩ rfl (encodeXK_and_F000 ..)
theorem seVxVy (x y : Reg) : Statement (.seVxVy x y) := of_row ⟨"5XY0", 0x5000, 0xF000⟩ rfl (encodeXYN_and_F000 ..)
theorem sneVxVy (x y : Reg) : Statement (.sneVxVy x y) := of_row ⟨"9XY0", 0x9000, 0xF000⟩ rfl (encodeXYN_and_F000 ..)
theorem ldVxNN (x : Reg) (nn : Byte) : Statement (.ldVxNN x nn) :=
  of_row ⟨"6XNN", 0x6000, 0xF000⟩ rfl (encodeXK_and_F000 ..)
theorem addVxNN (x : Reg) (nn : Byte) : Statement (.addVxNN x nn) :=
  of_row ⟨"7XNN", 0x7000, 0xF000⟩ rfl (encodeXK_and_F000 ..)
theorem ldVxVy (x y : Reg) : Statement (.ldVxVy x y) := of_row ⟨"8XY0", 0x8000, 0xF00F⟩ rfl (encodeXYN_and_F00F ..)
theorem orVxVy (x y : Reg) : Statement (.orVxVy x y) := of_row ⟨"8XY1", 0x8001, 0xF00F⟩ rfl (encodeXYN_and_F00F ..)
theorem andVxVy (x y : Reg) : Statement (.andVxVy x y) := of_row ⟨"8XY2", 0x8002, 0xF00F⟩ rfl (encodeXYN_and_F00F ..)
theorem xorVxVy (x y : Reg) : Statement (.xorVxVy x y) := of_row ⟨"8XY3", 0x8003, 0xF00F⟩ rfl (encodeXYN_and_F00F ..)
theorem addVxVy (x y : Reg) : Statement (.addVxVy x y) := of_row ⟨"8XY4", 0x8004, 0xF00F⟩ rfl (encodeXYN_and_F00F ..)
theorem subVxVy (x y : Reg) : Statement (.subVxVy x y) := of_row ⟨"8XY5", 0x8005, 0xF00F⟩ rfl (encodeXYN_and_F00F ..)
theorem shrVx (x y : Reg) : Statement (.shrVx x y) := of_row ⟨"8XY6", 0x8006, 0xF00F⟩ rfl (encodeXYN_and_F00F ..)
theorem subnVxVy (x y : Reg) : Statement (.subnVxVy x y) :=
  of_row ⟨"8XY7", 0x8007, 0xF00F⟩ rfl (encodeXYN_and_F00F ..)
theorem shlVx (x y : Reg) : Statement (.shlVx x y) := of_row ⟨"8XYE", 0x800E, 0xF00F⟩ rfl (encodeXYN_and_F00F ..)
theorem ldINNN (nnn : Addr12) : Statement (.ldINNN nnn) := of_row ⟨"ANNN", 0xA000, 0xF000⟩ rfl (encodeA_and_F000 ..)
theorem jpV0 (nnn : Addr12) : Statement (.jpV0 nnn) := of_row ⟨"BNNN", 0xB000, 0xF000⟩ rfl (encodeA_and_F000 ..)
theorem rndVxNN (x : Reg) (nn : Byte) : Statement (.rndVxNN x nn) :=
  of_row ⟨"CXNN", 0xC000, 0xF000⟩ rfl (encodeXK_and_F000 ..)
theorem drw (x y : Reg) (n : Nat) : Statement (.drw x y n) :=
  of_row ⟨"DXYN", 0xD000, 0xF000⟩ rfl (encodeXYN_and_F000 ..)
theorem skp (x : Reg) : Statement (.skp x) := of_row ⟨"EX9E", 0xE09E, 0xF0FF⟩ rfl (encodeXK_and_F0FF ..)
theorem sknp (x : Reg) : Statement (.sknp x) := of_row ⟨"EXA1", 0xE0A1, 0xF0FF⟩ rfl (encodeXK_and_F0FF ..)
theorem ldVxDT (x : Reg) : Statement (.ldVxDT x) := of_row ⟨"FX07", 0xF007, 0xF0FF⟩ rfl (encodeXK_and_F0FF ..)
theorem ldDTVx (x : Reg) : Statement (.ldDTVx x) := of_row ⟨"FX15", 0xF015, 0xF0FF⟩ rfl (encodeXK_and_F0FF ..)
theorem ldSTVx (x : Reg) : Statement (.ldSTVx x) := of_row ⟨"FX18", 0xF018, 0xF0FF⟩ rfl (encodeXK_and_F0FF ..)
theorem ldVxK (x : Reg) : Statement (.ldVxK x) := of_row ⟨"FX0A", 0xF00A, 0xF0FF⟩ rfl (encodeXK_and_F0FF ..)
theorem addIVx (x : Reg) : Statement (.addIVx x) := of_row ⟨"FX1E", 0xF01E, 0xF0FF⟩ rfl (encodeXK_and_F0FF ..)
theorem ldFVx (x : Reg) : Statement (.ldFVx x) := of_row ⟨"FX29", 0xF029, 0xF0FF⟩ rfl (encodeXK_and_F0FF ..)
theorem ldBVx (x : Reg) : Statement (.ldBVx x) := of_row ⟨"FX33", 0xF033, 0xF0FF⟩ rfl (encodeXK_and_F0FF ..)
theorem ldMemVx (x : Reg) : Statement (.ldMemVx x) := of_row ⟨"FX55", 0xF055, 0xF0FF⟩ rfl (encodeXK_and_F0FF ..)
theorem ldVxMem (x : Reg) : Statement (.ldVxMem x) := of_row ⟨"FX65", 0xF065, 0xF0FF⟩ rfl (encodeXK_and_F0FF ..)

end Laws.EncodesToRow

end Sys2Proof
end

