-- ==== Sys2Proof/Tests/Slice0.lean ====
section
/-! SUPPORT. The model's own tests. Expected values are the spec's: spec/95_test_vectors.md (the vector is named in each
comment), the patterns and examples of 30_encoding.md R72, R74, R82, or hand calculation from the rule named. The last
part shows states that meet the hypotheses of the statements. -/

namespace Sys2Proof.Tests

open Sys2Proof.Machine

/-- One step from `s` with the word `w` stored at `pc` ends in a next state that passes `p`. -/
def ok (s : State) (w : Word) (p : State → Bool) : Bool :=
  match step (storeWordAtPc s w) with
  | .next t => p t
  | .fault _ => false
  | .refused _ => false

/-- One step from `s` with the word `w` stored at `pc` ends in the fault `f`. -/
def faults (s : State) (w : Word) (f : Fault) : Bool :=
  match step (storeWordAtPc s w) with
  | .next _ => false
  | .fault g => decide (g = f)
  | .refused _ => false

/-- The base state of 95_test_vectors.md part 2. -/
abbrev base : State := State.reset

/-- `base` with some registers set. -/
def regs (l : List (Reg × Byte)) : State := l.foldl (fun s p => s.setV p.1 p.2) base

/-- `s` with some memory bytes set. -/
def bytes (s : State) (l : List (Nat × Byte)) : State := l.foldl (fun s p => s.setMem (Memory.write s.mem p.1 p.2)) s

/-- `s` with some cells (column, row) inverted. -/
def cells (s : State) (l : List (Nat × Nat)) : State := { s with fb := (blit l s.fb).1 }

/-- `s` with `pc` set. -/
def atPc (s : State) (p : Word) : State := { s with pc := p }

/-- `s` with a call stack. -/
def calls (s : State) (sp : Fin 17) (top : Word) : State := { s with sp := sp, stack := s.stack.set 0 top }

/-! ### Well-formedness: what the checks refuse -/

theorem test_wf_refuses_height_16 : (Instr.drw 0 0 16).wf = false := by decide
theorem test_wf_accepts_height_15 : (Instr.drw 0 0 15).wf = true := by decide
theorem test_rom_refuses_3585 : romOk (List.replicate 3585 0) = false := by
  rw [romOk, List.length_replicate]; decide
theorem test_rom_accepts_3584 : romOk (List.replicate 3584 0) = true := by
  rw [romOk, List.length_replicate]; decide

/-- A glyph is 4 pixels wide (R265). -/
theorem test_font_refuses_low_bits :
    fontOk (Vector.replicate 80 0x01) = false ∧ fontOk ((Vector.replicate 80 0xF0).set 79 0xF8) = false := by decide
theorem test_font_accepts_high_bits : fontOk (Vector.replicate 80 0xF0) = true := by decide

/-! ### Decoding: words written out bit by bit from the layouts of R72 and the matches of R74 -/

theorem test_decode_group_0 :
    decode 0b0000000011100000#16 = .instr .cls ∧ decode 0b0000000011101110#16 = .instr .ret := by decide
theorem test_decode_jumps :
    decode 0b0001001000110100#16 = .instr (.jp 0x234) ∧ decode 0b0010001100000000#16 = .instr (.call 0x300) ∧
    decode 0b1011001100000000#16 = .instr (.jpV0 0x300) := by decide
theorem test_decode_skips :
    decode 0b0011001000101010#16 = .instr (.seVxNN 2 0x2A) ∧ decode 0b0100001000101010#16 = .instr (.sneVxNN 2 0x2A) ∧
    decode 0b0101000100100000#16 = .instr (.seVxVy 1 2) ∧ decode 0b1001000100100000#16 = .instr (.sneVxVy 1 2) := by
  decide
theorem test_decode_immediates :
    decode 0b0110101010110011#16 = .instr (.ldVxNN 0xA 0xB3) ∧ decode 0b0111000111111111#16 = .instr (.addVxNN 1 0xFF) ∧
    decode 0b1010001011110000#16 = .instr (.ldINNN 0x2F0) ∧ decode 0b1100001100001111#16 = .instr (.rndVxNN 3 0x0F) := by
  decide
theorem test_decode_group_8_logic :
    decode 0b1000000100100000#16 = .instr (.ldVxVy 1 2) ∧ decode 0b1000000100100001#16 = .instr (.orVxVy 1 2) ∧
    decode 0b1000000100100010#16 = .instr (.andVxVy 1 2) ∧ decode 0b1000000100100011#16 = .instr (.xorVxVy 1 2) := by
  decide
theorem test_decode_group_8_arithmetic :
    decode 0b1000001101000100#16 = .instr (.addVxVy 3 4) ∧ decode 0b1000000100100101#16 = .instr (.subVxVy 1 2) ∧
    decode 0b1000000100000110#16 = .instr (.shrVx 1 0) ∧ decode 0b1000000100100111#16 = .instr (.subnVxVy 1 2) ∧
    decode 0b1000000100001110#16 = .instr (.shlVx 1 0) := by decide
theorem test_decode_draw : decode 0b1101000000010101#16 = .instr (.drw 0 1 5) := by decide
theorem test_decode_keys :
    decode 0b1110010110011110#16 = .instr (.skp 5) ∧ decode 0b1110010110100001#16 = .instr (.sknp 5) ∧
    decode 0b1111001000001010#16 = .instr (.ldVxK 2) := by decide
theorem test_decode_timers :
    decode 0b1111001100000111#16 = .instr (.ldVxDT 3) ∧ decode 0b1111000000010101#16 = .instr (.ldDTVx 0) ∧
    decode 0b1111000100011000#16 = .instr (.ldSTVx 1) := by decide
theorem test_decode_index_and_memory :
    decode 0b1111000100011110#16 = .instr (.addIVx 1) ∧ decode 0b1111101000101001#16 = .instr (.ldFVx 0xA) ∧
    decode 0b1111001000110011#16 = .instr (.ldBVx 2) ∧ decode 0b1111000101010101#16 = .instr (.ldMemVx 1) ∧
    decode 0b1111001001100101#16 = .instr (.ldVxMem 2) := by decide
/-- DEC-1, DEC-2, DEC-3, DEC-4 and a 0NNN word (R79, R81). -/
theorem test_decode_unknown :
    decode 0x0000 = .unknown 0x0000 ∧ decode 0xF0FF = .unknown 0xF0FF ∧ decode 0x8128 = .unknown 0x8128 ∧
    decode 0xE000 = .unknown 0xE000 ∧ decode 0x0123 = .unknown 0x0123 := by decide
/-- DEC-5, DEC-6, DEC-7, DEC-8: the ignored bits (R76, R77). -/
theorem test_decode_ignored_bits :
    decode 0x01E0 = .instr .cls ∧ decode 0x0FEE = .instr .ret ∧ decode 0x5121 = .instr (.seVxVy 1 2) ∧
    decode 0x912F = .instr (.sneVxVy 1 2) := by decide
/-- R82's example, and R55's byte order. -/
theorem test_encode_example :
    encode (.addVxVy 3 4) = 0x8344 ∧ encodeBytes (.addVxVy 3 4) = [0x83, 0x44] := by decide
/-- R84: SHR V1 and SHL V1 are written with Y = 0, whatever the unread Y of the term. -/
theorem test_assembly_shifts :
    assemblyText (.shlVx 1 7) = "SHL V1" ∧
    assemble [.code (.shrVx 1 7), .code (.shlVx 1 7)] = [0x81, 0x06, 0x81, 0x0E] := by decide
/-- The spellings of R82, R84 and of programs P1, P3, P4 and P5, and P4's first word with its data bytes. -/
theorem test_assembly :
    assemblyText (.addVxVy 3 4) = "ADD V3, V4" ∧ assemblyText (.ldVxNN 0 5) = "LD V0, 0x05" ∧
    assemblyText (.call 0x210) = "CALL 0x210" ∧ assemblyText (.ldVxMem 2) = "LD V2, [I]" ∧
    assemblyText (.ldVxK 1) = "LD V1, K" ∧ assemblyText (.shrVx 1 7) = "SHR V1" ∧
    assemble [.code (.ldINNN 0x20C), .db 0x80] = [0xA2, 0x0C, 0x80] := by decide
theorem test_assembly_draw : assemblyText (.drw 0 1 3) = "DRW V0, V1, 3" := by rfl
theorem test_decode_truncated : decodeBytes [0x12] = .truncated ∧ decodeBytes [] = .truncated := by decide
theorem test_decodeTableWord :
    decodeTableWord 16 0x8344 = some (.addVxVy 3 4) ∧ decodeTableWord 16 0x0000 = none := by decide
theorem test_withFetchWord :
    fetch (State.reset.withFetchWord 16 0x8344) = .ok 0x8344 := by rfl

/-! ### The step -/

/-- DEC-1. -/
theorem test_step_unknown_zero : ok base 0x0000 (fun t => t.pc == 0x200 && t.outcome == .unknown 0x0000) = true := by
  decide
/-- DEC-2. -/
theorem test_step_unknown_ticks :
    ok { base with dt := 2, st := 1 } 0xF0FF
      (fun t => t.dt == 1 && t.st == 0 && t.sound && t.pc == 0x200 && t.outcome == .unknown 0xF0FF) = true := by decide
/-- DEC-9: an odd address. -/
theorem test_step_odd_address : ok (atPc base 0x201) 0x1234 (fun t => t.pc == 0x234) = true := by decide
/-- DEC-10: the last legal fetch. -/
theorem test_step_last_fetch : ok (atPc base 0xFFE) 0x1200 (fun t => t.pc == 0x200) = true := by decide
/-- DEC-11, DEC-12. -/
theorem test_step_fetch_faults :
    faults (atPc base 0xFFF) 0x0000 (.memoryFault 0x1000) = true ∧
    faults (atPc base 0x1000) 0x0000 (.memoryFault 0x1000) = true := by decide
/-- TIM-6. -/
theorem test_timers_stay_zero : ok base 0x6000 (fun t => t.dt == 0 && t.st == 0 && !t.sound) = true := by decide

/-! ### Control flow -/

/-- CF-1. -/
theorem test_jp : ok base 0x1234 (fun t => t.pc == 0x234 && t.outcome == .completed) = true := by decide
/-- CF-2. -/
theorem test_call : ok base 0x2300 (fun t => t.stack[0] == 0x200 && t.sp == 1 && t.pc == 0x300) = true := by decide
/-- CF-3. -/
theorem test_call_overflow : faults (calls base 16 0) 0x2300 (.stackFault .overflow 0x200) = true := by decide
/-- CF-4. -/
theorem test_ret_underflow : faults base 0x00EE (.stackFault .underflow 0x200) = true := by decide
/-- CF-5. -/
theorem test_ret : ok (calls base 1 0xFFE) 0x00EE (fun t => t.sp == 0 && t.pc == 0x1000 && t.stack[0] == 0xFFE) = true := by
  decide
/-- CF-6, CF-7. -/
theorem test_se_immediate :
    ok (regs [(2, 0x2A)]) 0x322A (fun t => t.pc == 0x204) = true ∧
    ok (regs [(2, 0x2A)]) 0x322B (fun t => t.pc == 0x202) = true := by decide
/-- CF-8, CF-9. -/
theorem test_sne_immediate :
    ok (regs [(2, 0x2A)]) 0x422A (fun t => t.pc == 0x202) = true ∧
    ok (regs [(2, 0x2A)]) 0x422B (fun t => t.pc == 0x204) = true := by decide
/-- CF-11, CF-12. -/
theorem test_se_register :
    ok (regs [(1, 0x07), (2, 0x07)]) 0x5120 (fun t => t.pc == 0x204) = true ∧
    ok (regs [(1, 0x07), (2, 0x08)]) 0x5120 (fun t => t.pc == 0x202) = true := by decide
/-- DEC-8, CF-14. -/
theorem test_sne_register :
    ok (regs [(1, 0x07), (2, 0x08)]) 0x912F (fun t => t.pc == 0x204) = true ∧
    ok (regs [(3, 0x99)]) 0x9330 (fun t => t.pc == 0x202) = true := by decide
/-- CF-10: a taken skip may leave the address space. -/
theorem test_skip_past_memory : ok (atPc base 0xFFC) 0x3000 (fun t => t.pc == 0x1000) = true := by decide
/-- CF-15, CF-16. -/
theorem test_jpV0 :
    ok (regs [(0, 0x10)]) 0xB300 (fun t => t.pc == 0x310) = true ∧
    ok (regs [(0, 0x20)]) 0xBFF0 (fun t => t.pc == 0x1010) = true := by decide

/-! ### Arithmetic and logic -/

/-- ALU-1. -/
theorem test_ldVxNN : ok base 0x6AB3 (fun t => t.getV 0xA == 0xB3 && t.pc == 0x202) = true := by decide
/-- ALU-2, ALU-3. -/
theorem test_addVxNN :
    ok (regs [(1, 0x02), (0xF, 0x09)]) 0x71FF (fun t => t.getV 1 == 0x01 && t.getV vf == 0x09) = true ∧
    ok (regs [(0xF, 0xFF)]) 0x7F01 (fun t => t.getV vf == 0x00) = true := by decide
/-- ALU-4. -/
theorem test_ldVxVy : ok (regs [(2, 0x77)]) 0x8120 (fun t => t.getV 1 == 0x77) = true := by decide
/-- ALU-5. -/
theorem test_or :
    ok (regs [(1, 0xF0), (2, 0x0F), (0xF, 0x55)]) 0x8121 (fun t => t.getV 1 == 0xFF && t.getV vf == 0x55) = true := by
  decide
/-- ALU-6. -/
theorem test_and :
    ok (regs [(1, 0xF0), (2, 0x3C), (0xF, 0x55)]) 0x8122 (fun t => t.getV 1 == 0x30 && t.getV vf == 0x55) = true := by
  decide
/-- ALU-7. -/
theorem test_xor :
    ok (regs [(1, 0xF0), (2, 0x3C), (0xF, 0x55)]) 0x8123 (fun t => t.getV 1 == 0xCC && t.getV vf == 0x55) = true := by
  decide
/-- ALU-8, ALU-9. -/
theorem test_add :
    ok (regs [(1, 0xFF), (2, 0x01)]) 0x8124 (fun t => t.getV 1 == 0x00 && t.getV vf == 1) = true ∧
    ok (regs [(1, 0x7F), (2, 0x80)]) 0x8124 (fun t => t.getV 1 == 0xFF && t.getV vf == 0) = true := by decide
/-- S4, ALU-10, ALU-11: VF as destination and as source. -/
theorem test_add_vf :
    ok (regs [(0xF, 0xFF), (1, 0x01)]) 0x8F14 (fun t => t.getV vf == 1) = true ∧
    ok (regs [(0xF, 0x10), (1, 0x01)]) 0x8F14 (fun t => t.getV vf == 0) = true ∧
    ok (regs [(1, 0x10), (0xF, 0xF0)]) 0x81F4 (fun t => t.getV 1 == 0x00 && t.getV vf == 1) = true := by decide
/-- ALU-12, ALU-13. -/
theorem test_sub :
    ok (regs [(1, 0x05), (2, 0x05)]) 0x8125 (fun t => t.getV 1 == 0x00 && t.getV vf == 1) = true ∧
    ok (regs [(1, 0x03), (2, 0x05)]) 0x8125 (fun t => t.getV 1 == 0xFE && t.getV vf == 0) = true := by decide
/-- ALU-14. -/
theorem test_sub_vf : ok (regs [(0xF, 0x03), (1, 0x05)]) 0x8F15 (fun t => t.getV vf == 0) = true := by decide
/-- ALU-17, ALU-18. -/
theorem test_shr :
    ok (regs [(1, 0x05), (2, 0xFF)]) 0x8126 (fun t => t.getV 1 == 0x02 && t.getV vf == 1) = true ∧
    ok (regs [(0xF, 0x03)]) 0x8F06 (fun t => t.getV vf == 1) = true := by decide
/-- ALU-15, ALU-16. -/
theorem test_subn :
    ok (regs [(1, 0x05), (2, 0x07)]) 0x8127 (fun t => t.getV 1 == 0x02 && t.getV vf == 1) = true ∧
    ok (regs [(1, 0x07), (2, 0x05)]) 0x8127 (fun t => t.getV 1 == 0xFE && t.getV vf == 0) = true := by decide
/-- ALU-19, ALU-20. -/
theorem test_shl :
    ok (regs [(1, 0x81)]) 0x810E (fun t => t.getV 1 == 0x02 && t.getV vf == 1) = true ∧
    ok (regs [(1, 0x7F)]) 0x810E (fun t => t.getV 1 == 0xFE && t.getV vf == 0) = true := by decide
/-- ALU-21, on the vector's random byte. -/
theorem test_rnd_byte :
    (match rndWith 0xAB 3 0x0F base with
      | .next t => t.getV 3 == 0x0B && t.draws == 1 && t.pc == 0x202
      | .fault _ => false
      | .refused _ => false) = true := by decide
/-- ALU-22: a zero mask, whatever the byte. -/
theorem test_rnd_zero_mask : ∃ t, exec (.rndVxNN 3 0x00) base = .next t ∧ t.getV 3 = 0x00 :=
  ⟨_, rfl, BitVec.and_zero⟩

/-! ### The index register and memory -/

/-- MEM-1. -/
theorem test_ldI : ok base 0xA2F0 (fun t => t.index == 0x2F0 && t.pc == 0x202) = true := by decide
/-- MEM-3, MEM-4. -/
theorem test_addI_past_memory :
    ok ((regs [(1, 0x03)]).setIndex 0x0FFE) 0xF11E (fun t => t.index == 0x1001 && t.getV vf == 1) = true ∧
    ok ((regs [(0xF, 0x01)]).setIndex 0x0FFF) 0xFF1E (fun t => t.index == 0x1000 && t.getV vf == 1) = true := by decide
/-- MEM-2, MEM-5. -/
theorem test_addI :
    ok ((regs [(1, 0x03)]).setIndex 0x0200) 0xF11E (fun t => t.index == 0x0203 && t.getV vf == 0) = true ∧
    ok ((regs [(1, 0x02)]).setIndex 0xFFFF) 0xF11E (fun t => t.index == 0x0001 && t.getV vf == 1) = true := by decide
/-- MEM-6, MEM-7. -/
theorem test_ldF :
    ok (regs [(0xA, 0x05)]) 0xFA29 (fun t => t.index == 0x019) = true ∧
    ok (regs [(0xA, 0x10)]) 0xFA29 (fun t => t.index == 0x050) = true := by decide
/-- S2. -/
theorem test_bcd :
    ok ((regs [(2, 0xEA)]).setIndex 0x300) 0xF233 (fun t => Memory.read t.mem 0x300 == 0x02 &&
      Memory.read t.mem 0x301 == 0x03 && Memory.read t.mem 0x302 == 0x04 && t.index == 0x300) = true := by decide
/-- MEM-10. -/
theorem test_bcd_fault : faults ((regs [(2, 0x07)]).setIndex 0xFFE) 0xF233 (.memoryFault 0x1000) = true := by decide
/-- MEM-12. -/
theorem test_store_block :
    ok ((regs [(0, 0x11), (1, 0x22)]).setIndex 0x300) 0xF155 (fun t => Memory.read t.mem 0x300 == 0x11 &&
      Memory.read t.mem 0x301 == 0x22 && t.index == 0x302) = true := by decide
/-- MEM-13. -/
theorem test_store_block_fault :
    faults ((regs [(0, 1), (1, 2), (2, 3)]).setIndex 0xFFE) 0xF255 (.memoryFault 0x1000) = true := by decide
/-- MEM-14. -/
theorem test_load_block :
    ok ((bytes base [(0x300, 2), (0x301, 3), (0x302, 4)]).setIndex 0x300) 0xF265
      (fun t => t.getV 0 == 2 && t.getV 1 == 3 && t.getV 2 == 4 && t.index == 0x303) = true := by decide
/-- MEM-15, MEM-16. -/
theorem test_load_block_vf_and_font :
    ok ((bytes base [(0x30F, 0x99)]).setIndex 0x300) 0xFF65 (fun t => t.getV vf == 0x99 && t.index == 0x310) = true ∧
    ok base 0xF065 (fun t => t.getV 0 == 0xF0 && t.index == 1) = true := by decide

/-! ### Display -/

/-- CLS-1. -/
theorem test_cls :
    ok (cells (regs [(0xF, 0x42)]) [(1, 1), (63, 31)]) 0x00E0
      (fun t => t.fb == Framebuffer.clear && t.drawFlag && t.getV vf == 0x42) = true := by decide
/-- DXYN-2, DXYN-10. -/
theorem test_drw_collision :
    ok ((cells (bytes base [(0x300, 0x80)]) [(0, 0)]).setIndex 0x300) 0xD011
      (fun t => !Framebuffer.cell t.fb 0 0 && t.getV vf == 1 && t.drawFlag) = true ∧
    ok ((cells (bytes (regs [(0xF, 2)]) [(0x300, 0x80)]) [(2, 2)]).setIndex 0x300) 0xDFF1
      (fun t => !Framebuffer.cell t.fb 2 2 && t.getV vf == 1) = true := by decide
/-- DXYN-5, DXYN-7, DXYN-8. -/
theorem test_drw_faults :
    faults ((bytes (regs [(0, 60)]) [(0x300, 0xFF)]).setIndex 0x300) 0xD011 (.displayFault 64 0) = true ∧
    faults ((bytes (regs [(1, 31)]) [(0x300, 0x80), (0x301, 0x80)]).setIndex 0x300) 0xD012 (.displayFault 0 32) = true ∧
    faults ((bytes (regs [(0, 100), (1, 100)]) [(0xFFF, 0xFF)]).setIndex 0xFFF) 0xD012 (.memoryFault 0x1000) = true := by
  decide

/-! ### Keys and timers -/

/-- KEY-1, KEY-2. -/
theorem test_skp :
    ok (setKey 0xA 1 (regs [(5, 0x0A)])) 0xE59E (fun t => t.pc == 0x204) = true ∧
    ok (regs [(5, 0x0A)]) 0xE59E (fun t => t.pc == 0x202) = true := by decide
/-- KEY-3, KEY-4. -/
theorem test_sknp :
    ok (regs [(5, 0x0A)]) 0xE5A1 (fun t => t.pc == 0x204) = true ∧
    ok (setKey 0xA 2 (regs [(5, 0x0A)])) 0xE5A1 (fun t => t.pc == 0x202) = true := by decide
/-- KEY-5, KEY-6. -/
theorem test_key_faults :
    faults (regs [(5, 0x10)]) 0xE59E (.keyFault 0x10) = true ∧
    faults (regs [(5, 0xFF)]) 0xE5A1 (.keyFault 0xFF) = true := by decide
/-- KEY-7. -/
theorem test_key_wait :
    ok { base with dt := 3, st := 1 } 0xF20A
      (fun t => t.outcome == .waiting && t.sound && t.dt == 2 && t.st == 0 && t.pc == 0x200) = true := by decide
/-- KEY-8, KEY-9. -/
theorem test_key_store :
    ok (setKey 3 1 (setKey 7 1 base)) 0xF20A (fun t => t.getV 2 == 0x03 && t.pc == 0x202) = true ∧
    ok (setKey 0xF 1 base) 0xFF0A (fun t => t.getV vf == 0x0F) = true := by decide
/-- TIM-1. -/
theorem test_ldVxDT : ok { base with dt := 5 } 0xF307 (fun t => t.getV 3 == 5 && t.dt == 4) = true := by decide
/-- TIM-2, TIM-3. -/
theorem test_ldDTVx :
    ok (regs [(0, 3)]) 0xF015 (fun t => t.dt == 2) = true ∧
    ok { base with dt := 9 } 0xF015 (fun t => t.dt == 0) = true := by decide
/-- TIM-4, TIM-5. -/
theorem test_ldSTVx :
    ok (regs [(1, 1)]) 0xF118 (fun t => t.st == 0 && t.sound) = true ∧
    ok { base with st := 1 } 0xF118 (fun t => t.st == 0 && !t.sound) = true := by decide
/-- TIM-7. -/
theorem test_fault_no_tick :
    transact defaultFont .step { atPc base 0xFFF with dt := 1, st := 2 } =
      ({ atPc base 0xFFF with dt := 1, st := 2, outcome := .fault (.memoryFault 0x1000) },
        .stepped (.fault (.memoryFault 0x1000)) false) := by decide
/-- R90, R99: FX18 of 1 fires the trigger, and the 00EE after it faults with no trigger. -/
theorem test_fault_no_sound :
    let t := transact defaultFont .step (bytes (regs [(1, 1)]) [(0x200, 0xF1), (0x201, 0x18), (0x202, 0x00), (0x203, 0xEE)])
    t.2 = .stepped .completed true ∧ t.1.sound = true ∧
    (transact defaultFont .step t.1).2 = .stepped (.fault (.stackFault .underflow 0x202)) false ∧
    (transact defaultFont .step t.1).1.sound = false := by decide

/-! ### Load and the host -/

/-- LD-3. -/
theorem test_load_one_byte :
    Memory.read (transact defaultFont (.load [0x12]) base).1.mem 0x200 = 0x12 ∧
    (transact defaultFont .step (transact defaultFont (.load [0x12]) base).1).1.pc = 0x200 := by decide
/-- Glyphs 5 and F of R266, in reset memory. -/
theorem test_default_font :
    (List.range 5).map (fun k => Memory.read base.mem (0x019 + k)) = [0xF0, 0x80, 0xF0, 0x10, 0xF0] ∧
    (List.range 5).map (fun k => Memory.read base.mem (0x04B + k)) = [0xF0, 0x80, 0xF0, 0x80, 0x80] := by decide
/-- R266: an engine with a font of zeros. -/
theorem test_load_other_font :
    let t := (transact ⟨Vector.replicate 80 0, by decide⟩ (.load [0x12]) base).1
    Memory.read t.mem 0x000 = 0 ∧ Memory.read t.mem 0x04F = 0 ∧ Memory.read t.mem 0x200 = 0x12 := by decide
/-- LD-5. -/
theorem test_load_empty :
    (transact defaultFont (.load []) (regs [(1, 5)])).2 = .loadReturned .loaded ∧
    (transact defaultFont .step (transact defaultFont (.load []) (regs [(1, 5)])).1).2 = .stepped (.unknown 0x0000) false := by decide
/-- HOST-1, HOST-2. -/
theorem test_host :
    (transact defaultFont .consumeDraw { base with drawFlag := true }).1.drawFlag = false ∧
    ok (transact defaultFont (.setKey 4 1) (regs [(4, 4)])).1 0xE49E (fun t => t.pc == 0x204) = true := by decide
/-- The numbers of R228. -/
theorem test_codes :
    Report.code .completed = 0 ∧ Report.code .waiting = 1 ∧ Report.code (.unknown 0) = 2 ∧
    Fault.code (.memoryFault 0x1000) = 3 ∧ Fault.code (.stackFault .overflow 0) = 4 ∧
    Fault.code (.displayFault 64 0) = 5 ∧ Fault.code (.keyFault 0x10) = 6 ∧ Fault.code (.romTooLarge 3585) = 7 ∧
    Report.code (.fault (.keyFault 0x10)) = 6 ∧ Report.code .loaded = 8 := by decide

/-! ### Witnesses: states and operands that meet the hypotheses of the statements, at boundary values -/

/-- `s` with the word `w` where the fetch reads. -/
def holding (w : Word) (s : State) : State := storeWordAtPc s w

theorem witness_DecodeEncodeRoundTrip : (Instr.drw 15 15 15).wf = true ∧ (Instr.ldVxMem 15).wf = true := by decide
theorem witness_DecoderFollowsOpcodeTable :
    decode 0xFF65 = .instr (.ldVxMem 15) ∧ decode 0x0000 = .unknown 0x0000 := by decide
theorem witness_MaskedWords :
    (0x0FE0 : Word) &&& 0xF0FF = 0x00E0 ∧ (0x5FFF : Word) &&& 0xF000 = 0x5000 ∧ (0x8FF4 : Word) &&& 0xF00F = 0x8004 := by
  decide
theorem witness_EncodeInvertsDecode : decode 0x0FEE = .instr .ret ∧ decode 0x512F = .instr (.seVxVy 1 2) := by decide
theorem witness_StepRunsDecodedInstruction_next :
    (atPc base 0xFFE).pc.toNat ≤ 0xFFE ∧
    decode (joinBytes (Memory.read (holding 0x1200 (atPc base 0xFFE)).mem 0xFFE)
      (Memory.read (holding 0x1200 (atPc base 0xFFE)).mem 0xFFF)) = .instr (.jp 0x200) ∧
    ∃ u, exec (.jp 0x200) (holding 0x1200 (atPc base 0xFFE)) = .next u := ⟨by decide, by decide, _, rfl⟩
theorem witness_StepRunsDecodedInstruction_fault :
    decode (joinBytes (Memory.read (holding 0x00EE base).mem 0x200) (Memory.read (holding 0x00EE base).mem 0x201)) =
      .instr .ret ∧ exec .ret (holding 0x00EE base) = .fault (.stackFault .underflow 0x200) := ⟨by decide, rfl⟩
theorem witness_FetchReadsBigEndianWord :
    (atPc base 0xFFE).pc.toNat ≤ 0xFFE ∧ 0xFFF ≤ (atPc base 0xFFF).pc.toNat := by decide
theorem witness_UnknownWordOnlyTicksTimers :
    (atPc base 0xFFE).pc.toNat ≤ 0xFFE ∧
    (0x0000 : Word) = joinBytes (Memory.read (atPc base 0xFFE).mem 0xFFE) (Memory.read (atPc base 0xFFE).mem 0xFFF) ∧
    ∀ r ∈ opcodeTable, r.selects 0x0000 = false := by decide
theorem witness_TimerPhaseOncePerStep :
    (∃ t, step { base with dt := 1, st := 0 } = .next t ∧ t.dt = 0) ∧
    step (atPc base 0xFFF) = .fault (.memoryFault 0x1000) := ⟨⟨_, rfl, rfl⟩, rfl⟩
theorem witness_SoundFiresOnlyOnOneToZero_other :
    (∃ t, step { base with st := 1 } = .next t ∧ t.sound = true) ∧ ∀ x, ¬ RunsAt { base with st := 1 } (.ldSTVx x) := by
  refine ⟨⟨_, rfl, rfl⟩, ?_⟩
  rintro x ⟨w, hf, hd⟩
  have hw : w = 0x0000 := by
    have h0 : fetch { base with st := 1 } = .ok 0x0000 := rfl
    exact Except.ok.inj (hf.symm.trans h0)
  rw [hw, show decode 0x0000 = .unknown 0x0000 from rfl] at hd
  cases hd
theorem witness_SoundFiresOnlyOnOneToZero_fault :
    step { atPc base 0xFFF with sound := true } = .fault (.memoryFault 0x1000) := rfl
theorem witness_SoundFiresOnlyOnOneToZero_write :
    RunsAt (holding 0xF118 (regs [(1, 1)])) (.ldSTVx 1) ∧
    ∃ t, step (holding 0xF118 (regs [(1, 1)])) = .next t ∧ t.sound = true := ⟨⟨_, rfl, rfl⟩, _, rfl, rfl⟩
theorem witness_InputsReadOnlyByTheirInstructions :
    (∀ x nn, Instr.cls ≠ .rndVxNN x nn) ∧ ∀ x, Instr.cls ≠ .skp x ∧ Instr.cls ≠ .sknp x ∧ Instr.cls ≠ .ldVxK x := by
  simp

/-- An instruction runs at `s` and its step ends in a next state. -/
def Steps (s : State) (i : Instr) : Prop := RunsAt s i ∧ ∃ t, step s = .next t

theorem witness_PcMovesByTwoFourOrTarget_targets :
    Steps (holding 0x1FFF base) (.jp 0xFFF) ∧ Steps (holding 0x2FFF base) (.call 0xFFF) ∧
    Steps (holding 0xBFFF (regs [(0, 0xFF)])) (.jpV0 0xFFF) ∧ Steps (holding 0x00EE (calls base 1 0xFFE)) .ret :=
  ⟨⟨⟨_, rfl, rfl⟩, _, rfl⟩, ⟨⟨_, rfl, rfl⟩, _, rfl⟩, ⟨⟨_, rfl, rfl⟩, _, rfl⟩, ⟨⟨_, rfl, rfl⟩, _, rfl⟩⟩
theorem witness_PcMovesByTwoFourOrTarget_skips :
    Steps (holding 0x3000 (atPc base 0xFFC)) (.seVxNN 0 0) ∧ Steps (holding 0x4000 base) (.sneVxNN 0 0) ∧
    Steps (holding 0x5000 base) (.seVxVy 0 0) ∧ Steps (holding 0x9000 base) (.sneVxVy 0 0) ∧
    Steps (holding 0xE09E base) (.skp 0) ∧ Steps (holding 0xE0A1 base) (.sknp 0) :=
  ⟨⟨⟨_, rfl, rfl⟩, _, rfl⟩, ⟨⟨_, rfl, rfl⟩, _, rfl⟩, ⟨⟨_, rfl, rfl⟩, _, rfl⟩, ⟨⟨_, rfl, rfl⟩, _, rfl⟩,
   ⟨⟨_, rfl, rfl⟩, _, rfl⟩, ⟨⟨_, rfl, rfl⟩, _, rfl⟩⟩
theorem witness_PcMovesByTwoFourOrTarget_waits :
    Steps (holding 0x6000 base) (.ldVxNN 0 0) ∧ Steps (holding 0xF20A base) (.ldVxK 2) :=
  ⟨⟨⟨_, rfl, rfl⟩, _, rfl⟩, ⟨⟨_, rfl, rfl⟩, _, rfl⟩⟩

theorem witness_InstructionRunsExactlyWhen_stack :
    CanRun .ret (calls base 1 0) ∧ ¬ CanRun .ret base ∧ CanRun (.call 0) (calls base 15 0) ∧
    ¬ CanRun (.call 0) (calls base 16 0) := by simp [CanRun, calls, State.reset]
theorem witness_InstructionRunsExactlyWhen_keys :
    CanRun (.skp 5) (regs [(5, 0xF)]) ∧ ¬ CanRun (.skp 5) (regs [(5, 0x10)]) ∧
    CanRun (.sknp 5) (regs [(5, 0xF)]) ∧ ¬ CanRun (.sknp 5) (regs [(5, 0x10)]) := by
  simp only [CanRun]
  decide
theorem witness_InstructionRunsExactlyWhen_memory :
    CanRun (.ldBVx 0) (base.setIndex 0xFFD) ∧ ¬ CanRun (.ldBVx 0) (base.setIndex 0xFFE) ∧
    CanRun (.ldMemVx 15) (base.setIndex 0xFF0) ∧ ¬ CanRun (.ldMemVx 15) (base.setIndex 0xFF1) ∧
    CanRun (.ldVxMem 15) (base.setIndex 0xFF0) ∧ ¬ CanRun (.ldVxMem 15) (base.setIndex 0xFF1) := by
  simp [CanRun, State.setIndex]
theorem witness_InstructionRunsExactlyWhen_draw :
    CanRun (.drw 0 1 0) (base.setIndex 0xFFFF) ∧ ¬ CanRun (.drw 0 1 1) (base.setIndex 0x1000) := by
  refine ⟨⟨.inl rfl, ?_⟩, ?_⟩
  · rintro c r ⟨k, -, hk, -⟩
    exact absurd hk (Nat.not_lt_zero k)
  · rintro ⟨h | h, -⟩
    · cases h
    · exact absurd h (by decide)
theorem witness_InstructionFrame :
    (∃ t, exec (.ldMemVx 15) (base.setIndex 0xFF0) = .next t) ∧ (∃ t, exec .ret (calls base 16 0) = .next t) ∧
    ∃ t, exec (.drw 0 1 5) base = .next t := ⟨⟨_, rfl⟩, ⟨_, rfl⟩, ⟨_, rfl⟩⟩
theorem witness_StackFaultsExactly :
    exec (.call 0xFFF) (calls base 16 0) = .fault (.stackFault .overflow 0x200) ∧
    exec .ret base = .fault (.stackFault .underflow 0x200) := ⟨rfl, rfl⟩
theorem witness_MemoryFaultReportsLowestAddress_access :
    exec (.ldBVx 0) (base.setIndex 0xFFE) = .fault (.memoryFault 0x1000) ∧
    exec (.ldVxMem 0) (base.setIndex 0xFFFF) = .fault (.memoryFault 0xFFFF) := ⟨rfl, rfl⟩
theorem witness_MemoryFaultReportsLowestAddress_fetch :
    (atPc base 0xFFF).pc.toNat = 0xFFF ∧ 0xFFF < (atPc base 0x1000).pc.toNat := by decide
theorem witness_DisplayFaultReportsFirstPixel :
    exec (.drw 0 1 1) ((bytes (regs [(0, 60)]) [(0x300, 0xFF)]).setIndex 0x300) = .fault (.displayFault 64 0) := rfl
theorem witness_FaultedStepChangesNothingAndRepeats :
    step (atPc base 0xFFF) = .fault (.memoryFault 0x1000) := rfl
theorem witness_RomTooLargeOnlyFromLoad : 3584 < (List.replicate 3585 (0 : Byte)).length := by
  rw [List.length_replicate]; decide
theorem base_inv : base.Inv := ⟨rfl, by decide, by decide⟩
theorem witness_StepKeepsInvariant : base.Inv ∧ ∃ t, step base = .next t := ⟨base_inv, _, rfl⟩
theorem witness_TransactionKeepsInvariant : base.Inv := base_inv
theorem witness_JumpSetsPc :
    (atPc base 0x200).pc.toNat = (0x200 : Addr12).toNat ∧ RunsAt (holding 0x1200 base) (.jp 0x200) ∧
    0xFFE < (atPc base 0xFFF).pc.toNat := ⟨by decide, ⟨_, rfl, rfl⟩, by decide⟩
theorem witness_CallPushesItsAddress_recursion :
    (holding 0x2200 base).sp.val = 0 ∧ (holding 0x2200 base).pc.toNat = (0x200 : Addr12).toNat ∧
    RunsAt (holding 0x2200 base) (.call 0x200) := ⟨by decide, by decide, ⟨_, rfl, rfl⟩⟩
theorem witness_CallPushesItsAddress :
    (calls base 15 0).sp.val < 16 ∧ (calls base 16 0).sp.val = 16 := by decide
theorem witness_ReturnPopsAndAddsTwo :
    (calls base 1 0).sp.val ≠ 0 ∧ (calls base 16 0).sp.val ≠ 0 ∧ base.sp.val = 0 := by decide
theorem witness_SkipOnImmediate : (regs [(2, 0x2A)]).getV 2 = 0x2A ∧ (regs [(2, 0x2A)]).getV 2 ≠ 0x2B := by decide
theorem witness_SkipOnRegister :
    (regs [(2, 7)]).getV 2 = (regs [(2, 7)]).getV 2 ∧ (regs [(2, 7)]).getV 2 ≠ (regs [(2, 7)]).getV 3 := by decide
theorem witness_CallThenReturnComesBack :
    let s := bytes (holding 0x2300 base) [(0x300, 0x00), (0x301, 0xEE)]
    s.sp.val < 16 ∧ RunsAt s (.call 0x300) ∧ (0x300 : Addr12).toNat ≠ 0xFFF ∧
      decode (joinBytes (Memory.read s.mem 0x300) (Memory.read s.mem 0x301)) = .instr .ret :=
  ⟨by decide, ⟨_, rfl, rfl⟩, by decide, rfl⟩
theorem witness_flag_destination : (1 : Reg) ≠ vf ∧ (15 : Reg) = vf := by decide
theorem witness_RandomByteIsMasked : (0x0F : Byte).getLsbD 4 = false := by decide
theorem witness_FlagIsWrittenLast_carry : ∃ t, exec (.addVxVy 15 15) (regs [(15, 0x80)]) = .next t ∧ t.getV vf = 1 :=
  ⟨_, rfl, by decide⟩
theorem witness_FlagIsWrittenLast :
    (∃ t, exec (.addIVx 15) base = .next t) ∧ ∃ t, exec (.drw 15 15 5) base = .next t := ⟨⟨_, rfl⟩, ⟨_, rfl⟩⟩
theorem witness_BcdStoresDigits :
    Memory.wf base.mem = true ∧ (base.setIndex 0xFFD).index.toNat + 2 ≤ 0xFFF ∧
    0xFFF < (base.setIndex 0xFFE).index.toNat + 2 := by decide
theorem witness_StoreBlockStoresRegisters :
    Memory.wf base.mem = true ∧ (base.setIndex 0xFF0).index.toNat + (15 : Reg).val ≤ 0xFFF ∧
    0xFFF < (base.setIndex 0xFF1).index.toNat + (15 : Reg).val := by decide
theorem witness_LoadBlockLoadsRegisters :
    (base.setIndex 0xFFF).index.toNat + (0 : Reg).val ≤ 0xFFF ∧
    0xFFF < (base.setIndex 0x1000).index.toNat + (0 : Reg).val := by decide
theorem witness_StoreThenLoadRestoresRegisters :
    Memory.wf base.mem = true ∧ (base.setIndex 0xFF0).index.toNat = (0xFF0 : Addr12).toNat ∧
    (base.setIndex 0xFF0).index.toNat + (15 : Reg).val ≤ 0xFFF := by decide
theorem witness_MemoryReadAfterWrite :
    Memory.wf [(0x000, 0x00), (0xFFF, 0x01)] = true ∧ Memory.wf base.mem = true ∧ 0xFFF ≤ 0xFFF := by decide
theorem witness_MemoryReadAfterWrite_same :
    Memory.wf (Memory.write base.mem 0xFFF 1) = true ∧ ∀ a, Memory.read base.mem a = Memory.read base.mem a :=
  ⟨by decide, fun _ => rfl⟩
/-- X = F with the word wholly in the block, and X = 0 with one byte of the word in it. -/
theorem witness_StoredBytesAreFetched_registers :
    Memory.wf base.mem = true ∧
    (∃ t, exec (.ldMemVx 15) (base.setIndex 0xFF0) = .next t ∧ (atPc t 0xFFE).mem = t.mem ∧
      (atPc t 0xFFE).pc.toNat = indexAddr (base.setIndex 0xFF0) 14) ∧
    ∃ t, exec (.ldMemVx 0) (base.setIndex 0x300) = .next t ∧ (atPc t 0x2FF).mem = t.mem ∧
      (atPc t 0x2FF).pc.toNat + 1 = indexAddr (base.setIndex 0x300) 0 :=
  ⟨rfl, ⟨_, rfl, rfl, by decide⟩, _, rfl, rfl, by decide⟩
theorem witness_StoredBytesAreFetched_digits :
    Memory.wf base.mem = true ∧ ∃ t, exec (.ldBVx 2) ((regs [(2, 0xEA)]).setIndex 0xFFD) = .next t ∧
      (atPc t 0xFFE).mem = t.mem ∧ fetch (atPc t 0xFFE) = .ok 0x0304 := ⟨rfl, _, rfl, rfl, rfl⟩
theorem witness_DrawInvertsCellsUnderSprite :
    let s := (bytes (regs [(0, 60), (1, 31)]) [(0xFFF, 0xF0)]).setIndex 0xFFF
    s.index.toNat + 1 ≤ 0x1000 ∧ ∃ t, exec (.drw 0 1 1) s = .next t ∧ Framebuffer.cell t.fb 63 31 = true ∧
      t.getV vf = 0 := ⟨by decide, _, rfl, by decide, by decide⟩
theorem witness_DrawInvertsCellsUnderSprite_grid :
    let s := (bytes (regs [(0, 63), (1, 31)]) [(0xFFF, 0x80)]).setIndex 0xFFF
    SetPixel s 0 1 1 63 31 ∧ ∀ column row, SetPixel s 0 1 1 column row → column ≤ 63 ∧ row ≤ 31 := by
  intro s
  have hx : (s.getV 0).toNat = 63 := rfl
  have hy : (s.getV 1).toNat = 31 := rfl
  have hb : Memory.read s.mem (s.index.toNat + 0) = 0x80 := rfl
  refine ⟨⟨0, 0, by decide, by decide, by rw [hb]; decide, by rw [hx], by rw [hy]⟩, ?_⟩
  rintro c r ⟨k, j, hk, hj, hp, rfl, rfl⟩
  obtain rfl : k = 0 := by omega
  rw [hb] at hp
  have : ∀ j < 8, (0x80 : Byte).getLsbD (7 - j) = true → j = 0 := by decide
  obtain rfl := this j hj hp
  omega
theorem witness_DoubleDrawRestoresCells :
    ∃ t v, exec (.drw 0 1 5) base = .next t ∧ exec (.drw 0 1 5) t = .next v ∧ t.index = base.index ∧
      t.getV 0 = base.getV 0 ∧ t.getV 1 = base.getV 1 ∧ t.mem = base.mem ∧ v.getV vf = 1 :=
  ⟨_, _, rfl, rfl, rfl, by decide, by decide, rfl, by decide⟩
theorem witness_SkipOnKeyLevel :
    let s := setKey 15 2 (regs [(5, 0x0F), (6, 0x10)])
    (s.getV 5).toNat = (15 : Fin 16).val ∧ s.keys[(15 : Fin 16)] ≠ 0 ∧ s.keys[(14 : Fin 16)] = 0 ∧
      exec (.skp 6) s = .fault (.keyFault 0x10) := ⟨by decide, by decide, by decide, rfl⟩
theorem witness_WaitForKeyStoresSmallest :
    ((setKey 15 1 base).keys[(15 : Fin 16)] ≠ 0 ∧ ∀ j : Fin 16, j < 15 → (setKey 15 1 base).keys[j] = 0) ∧
    (setKey 0 1 base).keys[(0 : Fin 16)] ≠ 0 ∧ ∀ k : Fin 16, base.keys[k] = 0 := by decide
theorem witness_WaitRepeatsUntilKey :
    RunsAt (holding 0xFF0A base) (.ldVxK 15) ∧ (∃ t, step (holding 0xFF0A base) = .next t ∧ t.outcome = .waiting) ∧
    (0x80 : Byte) ≠ 0 := ⟨⟨_, rfl, rfl⟩, ⟨_, rfl, rfl⟩, by decide⟩
theorem witness_TimersCountSteps :
    (∃ t, Sys2Proof.core.run 1 { base with dt := 2, st := 2 } = .next t ∧ t.dt = 1 ∧ t.st = 1) ∧
    (∀ x, ¬ RunsAt { base with dt := 2, st := 2 } (.ldDTVx x)) ∧
    ∀ x, ¬ RunsAt { base with dt := 2, st := 2 } (.ldSTVx x) := by
  have h0 : fetch { base with dt := 2, st := 2 } = .ok 0x0000 := rfl
  refine ⟨⟨_, rfl, rfl, rfl⟩, ?_, ?_⟩ <;>
  · rintro x ⟨w, hf, hd⟩
    obtain rfl : 0x0000 = w := Except.ok.inj (h0.symm.trans hf)
    cases hd
theorem witness_LoadInstallsProgram_digit : (0x0F : Byte).toNat = (15 : Fin 16).val := by decide
theorem witness_LoadInstallsProgram :
    (List.replicate 3584 (0 : Byte)).length ≤ 3584 ∧ ([] : List Byte).length ≤ 3584 := by
  rw [List.length_replicate]; decide
theorem witness_ZeroWordIsReportedForEver :
    (atPc base 0xFFE).pc.toNat ≤ 0xFFE ∧ Memory.read (atPc base 0xFFE).mem 0xFFE = 0 ∧
    Memory.read (atPc base 0xFFE).mem 0xFFF = 0 := by decide
theorem witness_ReloadReinitialises :
    ([0x12] : List Byte).length ≤ 3584 ∧ 3584 < (List.replicate 3585 (0 : Byte)).length := by
  rw [List.length_replicate]; decide
theorem witness_DrawFlagClearedOnlyByConsume :
    let s := { base with drawFlag := true }
    s.drawFlag = true ∧ (transact defaultFont .consumeDraw s).1.drawFlag = false ∧ (transact defaultFont (.load []) s).1.drawFlag = false := by
  decide

end Sys2Proof.Tests
end

section
/-! R24: the flag-writing instructions take result and flag from the old operands and write VF last. -/

namespace Sys2Proof.Machine

/-! ### Flags -/

theorem flag_eq_zero_or_one (b : Bool) : flag b = 0 ∨ flag b = 1 := by
  cases b
  · exact .inl rfl
  · exact .inr rfl

@[simp] theorem flag_eq_one {b : Bool} : flag b = 1 ↔ b = true := by cases b <;> decide

theorem carryFlag_eq_one {a b : Byte} : carryFlag a b = 1 ↔ 255 < a.toNat + b.toNat := by
  rw [carryFlag, flag_eq_one, decide_eq_true_iff]

/-! ### A result in `V[X]`, then the flag in VF -/

/-- Result and flag are functions of the two old operand values, and VF ends as the flag for every `X` (R24). -/
def WritesFlagLast (make : Reg → Reg → Instr) : Prop :=
  ∃ result flagValue : Byte → Byte → Byte, ∀ (x y : Reg) (s : State), ∃ t, exec (make x y) s = .next t ∧
    t.getV vf = flagValue (s.getV x) (s.getV y) ∧ (x ≠ vf → t.getV x = result (s.getV x) (s.getV y)) ∧
    (t.getV vf = 0 ∨ t.getV vf = 1)

/-- An arm that ends in `setResultFlag` of old operand values writes its flag last: `getV_setResultFlag` looks for VF before
it looks for `X`. -/
theorem writesFlagLast_of_exec {make : Reg → Reg → Instr} (result flagValue : Byte → Byte → Byte)
    (hexec : ∀ x y s, exec (make x y) s = .next ((s.setResultFlag x (result (s.getV x) (s.getV y))
      (flagValue (s.getV x) (s.getV y))).finish (s.pc + 2)))
    (hflag : ∀ a b, flagValue a b = 0 ∨ flagValue a b = 1) : WritesFlagLast make := by
  refine ⟨result, flagValue, fun x y s => ⟨_, hexec x y s, ?_, fun hx => ?_, ?_⟩⟩
  · simp
  · simp [hx]
  · simpa using hflag (s.getV x) (s.getV y)

theorem addVxVy_writesFlagLast : WritesFlagLast .addVxVy :=
  writesFlagLast_of_exec (· + ·) carryFlag exec_addVxVy fun _ _ => flag_eq_zero_or_one _

theorem subVxVy_writesFlagLast : WritesFlagLast .subVxVy :=
  writesFlagLast_of_exec (· - ·) noBorrowFlag exec_subVxVy fun _ _ => flag_eq_zero_or_one _

theorem shrVx_writesFlagLast : WritesFlagLast .shrVx :=
  writesFlagLast_of_exec (fun a _ => a >>> 1) (fun a _ => shiftedOutRight a) exec_shrVx fun _ _ => flag_eq_zero_or_one _

theorem subnVxVy_writesFlagLast : WritesFlagLast .subnVxVy :=
  writesFlagLast_of_exec (fun a b => b - a) (fun a b => noBorrowFlag b a) exec_subnVxVy fun _ _ => flag_eq_zero_or_one _

theorem shlVx_writesFlagLast : WritesFlagLast .shlVx :=
  writesFlagLast_of_exec (fun a _ => a <<< 1) (fun a _ => shiftedOutLeft a) exec_shlVx fun _ _ => flag_eq_zero_or_one _

/-- The carry of 8XY4 is that of the old operands, whatever the destination (R24). -/
theorem addVxVy_vf_eq_one {x y : Reg} {s t : State} (h : exec (.addVxVy x y) s = .next t) :
    t.getV vf = 1 ↔ 255 < (s.getV x).toNat + (s.getV y).toNat := by
  rw [exec_addVxVy] at h
  cases h
  rw [State.getV_finish, State.getV_setResultFlag, if_pos rfl, carryFlag_eq_one]

/-! ### A flag in VF and no other register -/

/-- VF ends as a flag and every other register keeps its value. -/
def WritesOnlyFlag (s t : State) : Prop := (t.getV vf = 0 ∨ t.getV vf = 1) ∧ ∀ k, k ≠ vf → t.getV k = s.getV k

/-- Setting VF to a flag writes only the flag, after an update `u` that touches no register. -/
theorem writesOnlyFlag_setV_flag {s u : State} (b : Bool) (pc : Word) (hu : ∀ k, u.getV k = s.getV k) :
    WritesOnlyFlag s ((u.setV vf (flag b)).finish pc) := by
  refine ⟨?_, fun k hk => ?_⟩
  · simpa using flag_eq_zero_or_one b
  · simp [hk.symm, hu]

theorem addIVx_writesOnlyFlag {x : Reg} {s t : State} (h : exec (.addIVx x) s = .next t) : WritesOnlyFlag s t := by
  rw [exec_addIVx] at h
  cases h
  exact writesOnlyFlag_setV_flag _ _ fun _ => rfl

theorem drw_writesOnlyFlag {x y : Reg} {n : Nat} {s t : State} (h : exec (.drw x y n) s = .next t) :
    WritesOnlyFlag s t := by
  rw [exec_drw, guarded_next, guarded_next] at h
  obtain ⟨-, -, hnext⟩ := h
  cases hnext
  exact writesOnlyFlag_setV_flag _ _ fun _ => rfl

/-- Settles O37: the five ALU arms end in `setResultFlag` of old operand values, FX1E and DXYN in `setV vf` of a flag. -/
theorem flagIsWrittenLast : Obligations.FlagIsWrittenLast := by
  refine ⟨fun make hmake => ?_, fun _ _ _ _ => addVxVy_vf_eq_one, fun x y n s t h => ?_⟩
  · simp only [List.mem_cons, List.not_mem_nil, or_false] at hmake
    obtain rfl | rfl | rfl | rfl | rfl := hmake
    · exact addVxVy_writesFlagLast
    · exact subVxVy_writesFlagLast
    · exact shrVx_writesFlagLast
    · exact subnVxVy_writesFlagLast
    · exact shlVx_writesFlagLast
  · obtain hadd | hdrw := h
    · exact addIVx_writesOnlyFlag hadd
    · exact drw_writesOnlyFlag hdrw

end Sys2Proof.Machine
end

section
/-! R71: the six fields of an instruction word, as numbers. -/

namespace Sys2Proof.Machine

/-- Cutting `len` bits out from bit `start` is a division and a remainder. -/
theorem toNat_extractLsb'_eq_div_mod {n : Nat} (w : BitVec n) (start len : Nat) :
    (w.extractLsb' start len).toNat = w.toNat / 2 ^ start % 2 ^ len := by
  rw [BitVec.extractLsb'_toNat, Nat.shiftRight_eq_div_pow]

/-- The top nibble needs no remainder: a word is below `2 ^ 16`. -/
theorem fieldOp_eq_div (w : Word) : fieldOp w = w.toNat / 4096 := by
  have hw : w.toNat < 2 ^ 16 := w.isLt
  have hcut : fieldOp w = w.toNat / 2 ^ 12 % 2 ^ 4 := toNat_extractLsb'_eq_div_mod w 12 4
  omega

theorem fieldX_eq_div_mod (w : Word) : (fieldX w).val = w.toNat / 256 % 16 := toNat_extractLsb'_eq_div_mod w 8 4

theorem fieldY_eq_div_mod (w : Word) : (fieldY w).val = w.toNat / 16 % 16 := toNat_extractLsb'_eq_div_mod w 4 4

/-- A field that starts at bit 0 is the remainder alone. -/
theorem toNat_extractLsb'_zero_eq_mod {n : Nat} (w : BitVec n) (len : Nat) :
    (w.extractLsb' 0 len).toNat = w.toNat % 2 ^ len := by
  rw [toNat_extractLsb'_eq_div_mod, Nat.pow_zero, Nat.div_one]

theorem fieldN_eq_mod (w : Word) : fieldN w = w.toNat % 16 := toNat_extractLsb'_zero_eq_mod w 4

theorem toNat_fieldNN (w : Word) : (fieldNN w).toNat = w.toNat % 256 := toNat_extractLsb'_zero_eq_mod w 8

theorem toNat_fieldNNN (w : Word) : (fieldNNN w).toNat = w.toNat % 4096 := toNat_extractLsb'_zero_eq_mod w 12

/-- Settles O2: each field is a bit range cut out of the word, read as a quotient and a remainder. -/
theorem fieldsCutFromWord : Obligations.FieldsCutFromWord := fun w =>
  ⟨fieldOp_eq_div w, fieldX_eq_div_mod w, fieldY_eq_div_mod w, fieldN_eq_mod w, toNat_fieldNN w, toNat_fieldNNN w⟩

end Sys2Proof.Machine
end

section
/-! R91, R95, R96: the word a step fetches, and where the step leaves `pc`. -/

namespace Sys2Proof.Machine

/-! ### The fetched word as a number -/

/-- The high byte fills the upper 8 bits, so joining adds no carry. -/
theorem joinBytes_eq_ofNat (hi lo : Byte) : joinBytes hi lo = BitVec.ofNat 16 (256 * hi.toNat + lo.toNat) := by
  have hhi := hi.isLt
  have hlo := lo.isLt
  apply BitVec.eq_of_toNat_eq
  rw [joinBytes, BitVec.toNat_append, ← Nat.shiftLeft_add_eq_or_of_lt hlo, Nat.shiftLeft_eq, BitVec.toNat_ofNat]
  omega

/-- Settles O7: the fetch's two answers, and a step that does not get past the fetch. -/
theorem fetchReadsBigEndianWord : Obligations.FetchReadsBigEndianWord := by
  refine fun s => ⟨fun hpc => ?_, fun hpc => ?_⟩
  · rw [fetch_ok hpc, joinBytes_eq_ofNat]
  · have hfault := fetch_fault (s := s) hpc
    exact ⟨hfault, step_fetch_fault hfault⟩

/-! ### Where an arm leaves `pc` -/

theorem toNat_addrOperand (nnn : Addr12) : (addrOperand nnn).toNat = nnn.toNat :=
  BitVec.toNat_setWidth_of_le (by decide)

/-- BNNN needs no reduction: the sum is at most 0x10FE. -/
theorem toNat_computedTarget (nnn : Addr12) (s : State) :
    (computedTarget nnn s).toNat = nnn.toNat + (s.getV 0).toNat := by
  have hnnn := nnn.isLt
  have hv := (s.getV 0).isLt
  rw [computedTarget, BitVec.toNat_ofNat]
  omega

/-- `p` is a `pc` that `i`, completed from `s`, may leave (R95, R96). -/
def PcTarget (i : Instr) (s : State) (p : Word) : Prop :=
  match i with
  | .jp nnn | .call nnn => p = addrOperand nnn
  | .jpV0 nnn => p = computedTarget nnn s
  | .ret => p = topOfStack s + 2
  | .seVxNN _ _ | .sneVxNN _ _ | .seVxVy _ _ | .sneVxVy _ _ | .skp _ | .sknp _ => p = s.pc + 2 ∨ p = s.pc + 4
  | _ => p = s.pc + 2

/-- An arm that does not fault completes at one of its instruction's targets, or is FX0A's and waits (R95, R99, R204). -/
theorem exec_next_pc {i : Instr} {s u : State} (h : exec i s = .next u) :
    (u.outcome = .completed ∧ PcTarget i s u.pc) ∨ (u.outcome = .waiting ∧ u.pc = s.pc ∧ ∃ x, i = .ldVxK x) := by
  cases i
  case ldVxK x =>
    rw [exec_ldVxK] at h
    split at h
    · cases h; exact .inl ⟨rfl, rfl⟩
    · cases h; exact .inr ⟨rfl, rfl, x, rfl⟩
  all_goals refine .inl ?_
  case ret | call =>
    simp only [exec_ret, exec_call] at h
    split at h <;> cases h
    exact ⟨rfl, rfl⟩
  case seVxNN | sneVxNN | seVxVy | sneVxVy =>
    simp only [exec_seVxNN, exec_sneVxNN, exec_seVxVy, exec_sneVxVy] at h
    cases h
    exact ⟨rfl, (ite_eq_or_eq ..).symm⟩
  case skp | sknp =>
    simp only [exec_skp, exec_sknp] at h
    split at h <;> cases h
    exact ⟨rfl, (ite_eq_or_eq ..).symm⟩
  case ldBVx | ldMemVx | ldVxMem =>
    simp only [exec_ldBVx, exec_ldMemVx, exec_ldVxMem, guarded_next] at h
    obtain ⟨-, hnext⟩ := h
    cases hnext
    exact ⟨rfl, rfl⟩
  case drw =>
    rw [exec_drw, guarded_next, guarded_next] at h
    obtain ⟨-, -, hnext⟩ := h
    cases hnext
    exact ⟨rfl, rfl⟩
  -- the arms that always complete end in `finish` by definition (Laws/Step.lean)
  all_goals cases h; exact ⟨rfl, rfl⟩

/-- Settles O13: the timer phase touches neither `pc` nor the outcome, so the arm's own target is the step's. -/
theorem pcMovesByTwoFourOrTarget : Obligations.PcMovesByTwoFourOrTarget := by
  intro s t i hruns hstep
  obtain ⟨u, hexec, rfl⟩ := exec_of_runsAt hruns hstep
  rw [timerPhase_outcome, timerPhase_pc]
  refine (exec_next_pc hexec).imp_left fun ⟨hdone, hpc⟩ => ⟨hdone, ?_⟩
  cases i
  case jp | call => exact (congrArg BitVec.toNat hpc).trans (toNat_addrOperand _)
  case jpV0 => exact (congrArg BitVec.toNat hpc).trans (toNat_computedTarget _ s)
  all_goals exact hpc

end Sys2Proof.Machine
end

section
/-! R110 to R116, R223: the faults an arm can raise, jumps, calls and the skips on an immediate. -/

namespace Sys2Proof.Machine

/-! ### What each arm's fault can be -/

theorem checkPixels_some {ps : List (Nat × Nat)} {f : Fault} :
    checkPixels ps = some f ↔ ∃ p, ps.find? offGrid = some p ∧ f = .displayFault p.1 p.2 := by
  unfold checkPixels
  cases ps.find? offGrid <;> simp [eq_comm]

/-- `f` is the fault that `i` raises from `s` (R222 to R225). -/
def ArmFault (i : Instr) (s : State) (f : Fault) : Prop :=
  match i with
  | .ret => s.sp.val = 0 ∧ f = .stackFault .underflow s.pc
  | .call _ => s.sp.val = 16 ∧ f = .stackFault .overflow s.pc
  | .skp x | .sknp x => 16 ≤ (s.getV x).toNat ∧ f = .keyFault (s.getV x)
  | .ldBVx _ => checkRange (indexAddr s 0) 3 = some f
  | .ldMemVx x | .ldVxMem x => checkRange (indexAddr s 0) (x.val + 1) = some f
  | .drw x y n => checkRange (indexAddr s 0) n = some f ∨
      (checkRange (indexAddr s 0) n = none ∧ checkPixels (drwPixels x y n s) = some f)
  | _ => False

/-- An arm faults exactly with the fault of its own check. -/
theorem exec_fault {i : Instr} {s : State} {f : Fault} : exec i s = .fault f ↔ ArmFault i s f := by
  cases i
  case ret =>
    rw [exec_ret, ArmFault]
    split <;> simp [*, eq_comm]
  case call =>
    have hdepth := s.sp.isLt
    rw [exec_call, ArmFault]
    split
    · simp; omega
    · simp [show s.sp.val = 16 by omega, eq_comm]
  case skp x | sknp x =>
    by_cases hkey : (s.getV x).toNat < 16
    · simp [exec_skp, exec_sknp, ArmFault, hkey]
    · simp [exec_skp, exec_sknp, ArmFault, hkey, Nat.not_lt.1 hkey, eq_comm]
  case ldBVx | ldMemVx | ldVxMem => simp [exec_ldBVx, exec_ldMemVx, exec_ldVxMem, guarded_fault, ArmFault]
  case drw => simp [exec_drw, guarded_fault, ArmFault]
  case ldVxK => rw [exec_ldVxK]; split <;> simp [ArmFault]
  -- the arms that always complete answer `.next` by definition (Laws/Step.lean)
  all_goals exact ⟨fun h => (by cases h), False.elim⟩

/-- Settles O16: the check of every other arm raises a memory, display or key fault. -/
theorem stackFaultsExactly : Obligations.StackFaultsExactly := by
  intro i s k p
  rw [exec_fault]
  cases i
  -- each raises its own kind; what is left is the order of the conjuncts
  case ret | call => simp [ArmFault, and_comm, and_left_comm, and_assoc]
  case ldBVx | ldMemVx | ldVxMem | drw => simp [ArmFault, checkRange_some, checkPixels_some]
  -- EX9E and EXA1 raise key faults, the rest none
  all_goals simp [ArmFault]

/-! ### Frames and the next fetch -/

/-- Every `pc` past 0xFFE is a bad target: the fetch checks it whatever arm set it. -/
theorem badTargetFaultsNext (t : State) : BadTargetFaultsNext t := fun h => step_fetch_fault (fetch_fault h)

theorem keepsExcept_finish (s : State) (pc : Word) : KeepsExcept [] [] s (s.finish pc) where
  regs _ _ := rfl
  parts p _ := by cases p <;> simp [Part.same]

theorem keepsExcept_pushed (s : State) (w : Word) (h : s.sp.val < 16) : KeepsExcept [] [.sp, .stack] s (s.pushed w h) where
  regs _ _ := rfl
  parts p hp := by cases p <;> simp_all [Part.same]

theorem step_of_runsAt {s : State} {i : Instr} (h : RunsAt s i) : step s = afterArm (exec i s) := by
  obtain ⟨w, hfetch, hdecode⟩ := h
  exact step_instr hfetch hdecode

/-- Which instruction runs next depends on `pc` and memory alone (R56, R75). -/
theorem RunsAt.congr {s t : State} {i : Instr} (h : RunsAt s i) (hpc : t.pc = s.pc) (hmem : t.mem = s.mem) :
    RunsAt t i := by
  obtain ⟨w, hfetch, hdecode⟩ := h
  rw [fetch_eq_ok, ← hpc, ← hmem] at hfetch
  exact ⟨w, fetch_eq_ok.2 hfetch, hdecode⟩

/-- A target equal to `pc` as a number is `pc` as a word. -/
theorem addrOperand_eq_pc {nnn : Addr12} {s : State} (h : s.pc.toNat = nnn.toNat) : addrOperand nnn = s.pc :=
  BitVec.eq_of_toNat_eq ((toNat_addrOperand nnn).trans h.symm)

/-! ### 1NNN -/

/-- A jump to its own address leaves all but the timers and the outputs. -/
theorem step_selfJump {nnn : Addr12} {s : State} (hpc : s.pc.toNat = nnn.toNat) (hruns : RunsAt s (.jp nnn)) :
    step s = .next (timerPhase (s.finish s.pc)) := by
  rw [step_of_runsAt hruns, exec_jp, addrOperand_eq_pc hpc, afterArm_next]

/-- Settles O24: the arm is `finish` at the target, and a self-jump's step keeps `pc` and memory, so it runs again. -/
theorem jumpSetsPc : Obligations.JumpSetsPc := by
  refine ⟨encodes_of_op (n := 1) rfl fun w hop => by simp [decode, hop], fun nnn s => ?_, fun nnn s hpc hruns => ?_⟩
  · exact ⟨_, exec_jp nnn s, toNat_addrOperand nnn, rfl, badTargetFaultsNext _, keepsExcept_finish s _⟩
  · exact ⟨_, step_selfJump hpc hruns, rfl, rfl, hruns.congr rfl rfl, countDown_of_ne, countDown_of_ne,
      (keepsExcept_finish s s.pc).trans (keepsExcept_timerPhase _)⟩

/-! ### 2NNN -/

/-- A push writes the entry that `sp` names and no other (R110). -/
theorem getElem_stack_pushed (s : State) (w : Word) (h : s.sp.val < 16) (j : Fin 16) :
    (s.pushed w h).stack[j] = if j.val = s.sp.val then w else s.stack[j] := by
  simp only [State.pushed_stack, Fin.getElem_fin, Vector.getElem_set, eq_comm]

theorem exec_call_ok (nnn : Addr12) {s : State} (h : s.sp.val < 16) :
    exec (.call nnn) s = .next ((s.pushed s.pc h).finish (addrOperand nnn)) := by
  rw [exec_call, dif_pos h]

theorem exec_call_full (nnn : Addr12) {s : State} (h : s.sp.val = 16) :
    exec (.call nnn) s = .fault (.stackFault .overflow s.pc) :=
  exec_fault.2 ⟨h, rfl⟩

section selfCall
/-! A call that stands at the address it calls: each step pushes one entry and comes back to the same call. -/

variable {nnn : Addr12} {s : State}

theorem step_selfCall (hpc : s.pc.toNat = nnn.toNat) (hruns : RunsAt s (.call nnn)) (h : s.sp.val < 16) :
    ∃ t, step s = .next t ∧ t.sp.val = s.sp.val + 1 ∧ t.pc = s.pc ∧ RunsAt t (.call nnn) := by
  refine ⟨timerPhase ((s.pushed s.pc h).finish s.pc), ?_, rfl, rfl, hruns.congr rfl rfl⟩
  rw [step_of_runsAt hruns, exec_call_ok nnn h, addrOperand_eq_pc hpc, afterArm_next]

/-- As long as the stack has room, each of `k` steps goes one call deeper. -/
theorem run_selfCall (k : Nat) (hpc : s.pc.toNat = nnn.toNat) (hruns : RunsAt s (.call nnn)) (h : s.sp.val + k ≤ 16) :
    ∃ t : State, Sys2Proof.core.run k s = .next t ∧ t.sp.val = s.sp.val + k ∧ t.pc = s.pc ∧ RunsAt t (.call nnn) := by
  induction k generalizing s with
  | zero => exact ⟨s, rfl, rfl, rfl, hruns⟩
  | succ k ih =>
    obtain ⟨u, hstep, hsp, hpcu, hrunsu⟩ := step_selfCall hpc hruns (by omega)
    obtain ⟨t, hrun, hspt, hpct, hrunst⟩ := ih (hpcu ▸ hpc) hrunsu (by omega)
    exact ⟨t, (run_next hstep).trans hrun, by omega, hpct.trans hpcu, hrunst⟩

/-- The step after the last free entry is filled faults. -/
theorem run_selfCall_overflow (k : Nat) (hpc : s.pc.toNat = nnn.toNat) (hruns : RunsAt s (.call nnn))
    (h : s.sp.val + k = 16) : Sys2Proof.core.run (k + 1) s = .fault (.stackFault .overflow s.pc) := by
  induction k generalizing s with
  | zero => exact run_fault (by rw [step_of_runsAt hruns, exec_call_full nnn h, afterArm_fault])
  | succ k ih =>
    obtain ⟨u, hstep, hsp, hpcu, hrunsu⟩ := step_selfCall hpc hruns (by omega)
    rw [run_next hstep, ih (hpcu ▸ hpc) hrunsu (by omega), hpcu]

end selfCall

/-- Settles O25: the arm's two answers, and a self-call's runs by induction on the number of steps. -/
theorem callPushesItsAddress : Obligations.CallPushesItsAddress := by
  refine ⟨encodes_of_op (n := 2) rfl fun w hop => by simp [decode, hop], fun nnn s => ⟨fun h => ?_, exec_call_full nnn,
    fun hsp hpc hruns => ⟨fun k hk => ?_, run_selfCall_overflow 16 hpc hruns (by omega)⟩⟩⟩
  · exact ⟨_, exec_call_ok nnn h, toNat_addrOperand nnn, rfl, getElem_stack_pushed s s.pc h, rfl,
      (keepsExcept_pushed s s.pc h).trans (keepsExcept_finish _ _)⟩
  · obtain ⟨t, hrun, hspt, hpct, -⟩ := run_selfCall k hpc hruns (by omega)
    exact ⟨t, hrun, by omega, hpct⟩

/-! ### Skips -/

/-- A skip on `c` adds 4 to `pc` when `c` holds and 2 otherwise, and changes nothing else (R95). -/
theorem exec_skip_of_eq {i : Instr} {s : State} (c : Prop) [Decidable c]
    (h : exec i s = .next (s.finish (if c then s.pc + 4 else s.pc + 2))) :
    ∃ t, exec i s = .next t ∧ (c → t.pc = s.pc + 4) ∧ (¬ c → t.pc = s.pc + 2) ∧ t.outcome = .completed ∧
      BadTargetFaultsNext t ∧ KeepsExcept [] [] s t :=
  ⟨_, h, fun hc => if_pos hc, fun hc => if_neg hc, rfl, badTargetFaultsNext _, keepsExcept_finish s _⟩

/-- Settles O27: both rows are skips, on the comparison and on its negation. -/
theorem skipOnImmediate : Obligations.SkipOnImmediate := by
  refine ⟨encodes_of_op (n := 3) rfl fun w hop => by simp [decode, hop],
    encodes_of_op (n := 4) rfl fun w hop => by simp [decode, hop], fun x nn s => ⟨?_, ?_⟩⟩
  · exact exec_skip_of_eq _ (exec_seVxNN x nn s)
  · simpa only [not_not] using exec_skip_of_eq _ (exec_sneVxNN x nn s)

end Sys2Proof.Machine
end

section
/-! R130, R132, R136: loads and copies write one register, and 8XY4 writes the sum and then the carry. -/

namespace Sys2Proof.Machine

/-! ### Frames of the register writes -/

theorem keepsExcept_setV (s : State) (x : Reg) (b : Byte) : KeepsExcept [x] [] s (s.setV x b) where
  regs k hk := by
    have hne : x ≠ k := fun h => hk (List.mem_singleton.2 h.symm)
    rw [State.getV_setV, if_neg hne]
  parts p _ := by cases p <;> simp [Part.same]

/-- A result and its flag are two register writes. -/
theorem keepsExcept_setResultFlag (s : State) (x : Reg) (result flag : Byte) :
    KeepsExcept [x, vf] [] s (s.setResultFlag x result flag) :=
  (keepsExcept_setV s x result).trans (keepsExcept_setV _ vf flag)

/-! ### 6XNN and 8XY0 -/

/-- An arm that ends in one register write completes with it and changes nothing else (R22). -/
theorem exec_setV_of_eq {i : Instr} {s : State} {x : Reg} {b : Byte}
    (h : exec i s = .next ((s.setV x b).finish (s.pc + 2))) :
    ∃ t, exec i s = .next t ∧ t.getV x = b ∧ t.pc = s.pc + 2 ∧ t.outcome = .completed ∧ KeepsExcept [x] [] s t :=
  ⟨_, h, by simp, rfl, rfl, (keepsExcept_setV s x b).trans (keepsExcept_finish _ _)⟩

/-- Settles O31: both arms are one register write, of the operand byte and of the old `V[Y]`. -/
theorem loadAndCopyRegister : Obligations.LoadAndCopyRegister := by
  refine ⟨encodes_of_op (n := 6) rfl fun w hop => by simp [decode, hop],
    encodes_of_op_nibble (o := 8) (n := 0) rfl rfl fun w hop hn => by simp [decode, hop, decodeGroup8, hn],
    fun x y nn s => ⟨?_, ?_⟩⟩
  · exact exec_setV_of_eq (exec_ldVxNN x nn s)
  · exact exec_setV_of_eq (exec_ldVxVy x y s)

/-! ### 8XY4 -/

/-- An arm that ends in `setResultFlag` completes with the flag in VF whatever `X` is, and with the result in `V[X]` when
that is another register (R24). -/
theorem exec_setResultFlag_of_eq {i : Instr} {s : State} {x : Reg} {result flag : Byte}
    (h : exec i s = .next ((s.setResultFlag x result flag).finish (s.pc + 2))) :
    ∃ t, exec i s = .next t ∧ (x ≠ vf → t.getV x = result) ∧ t.getV vf = flag ∧
      t.pc = s.pc + 2 ∧ t.outcome = .completed ∧ KeepsExcept [x, vf] [] s t :=
  ⟨_, h, fun hx => by simp [hx], by simp, rfl, rfl,
    (keepsExcept_setResultFlag s x result flag).trans (keepsExcept_finish _ _)⟩

theorem carryFlag_eq_ite (a b : Byte) : carryFlag a b = if a.toNat + b.toNat > 255 then 1 else 0 := by
  simp [carryFlag, flag]

/-- Settles O33: the arm ends in `setResultFlag` of the sum and the carry of the old operands. -/
theorem addSetsCarry : Obligations.AddSetsCarry := by
  refine ⟨encodes_of_op_nibble (o := 8) (n := 4) rfl rfl fun w hop hn => by simp [decode, hop, decodeGroup8, hn],
    fun x y s => ?_⟩
  obtain ⟨t, hexec, hsum, hcarry, hrest⟩ := exec_setResultFlag_of_eq (exec_addVxVy x y s)
  refine ⟨t, hexec, fun hx => ?_, hcarry.trans (carryFlag_eq_ite _ _), hrest⟩
  rw [hsum hx, BitVec.toNat_add]

end Sys2Proof.Machine
end

section
/-! R160, R163 to R165: ANNN, and the transfers between memory and the registers. -/

namespace Sys2Proof.Machine

/-! ### Frames of the index, memory and block writes -/

theorem keepsExcept_setIndex (s : State) (w : Word) : KeepsExcept [] [.index] s (s.setIndex w) where
  regs _ _ := rfl
  parts p hp := by cases p <;> simp_all [Part.same]

theorem keepsExcept_setMem (s : State) (m : Memory) : KeepsExcept [] [.mem] s (s.setMem m) where
  regs _ _ := rfl
  parts p hp := by cases p <;> simp_all [Part.same]

theorem mem_regsWritten_ldVxMem {x k : Reg} : k ∈ regsWritten (.ldVxMem x) ↔ k ≤ x := by
  simp [regsWritten]

/-- A block load of `X + 1` registers gives register `k` its byte when `k` is at most `X` (R165). -/
theorem getV_setRegs_loadRegs (s : State) (m : Memory) (a : Nat) (x k : Reg) :
    (s.setRegs (loadRegs m a (x.val + 1) s.v)).getV k = if k ≤ x then Memory.read m (a + k.val) else s.getV k := by
  have hle : k ≤ x ↔ k.val < x.val + 1 := Nat.lt_succ_iff.symm
  simp only [hle]
  exact getElem_loadRegs m a (x.val + 1) s.v k.val k.isLt

theorem keepsExcept_setRegs_loadRegs (s : State) (m : Memory) (a : Nat) (x : Reg) :
    KeepsExcept (regsWritten (.ldVxMem x)) [] s (s.setRegs (loadRegs m a (x.val + 1) s.v)) where
  regs k hk := by rw [getV_setRegs_loadRegs, if_neg (mem_regsWritten_ldVxMem.not.1 hk)]
  parts p _ := by cases p <;> simp [Part.same]

/-! ### A transfer through `I`: the check, the bytes written and the new `I` -/

/-- An arm behind the check of the bytes at `I` to `I + n` runs when the last of them exists (R59). -/
theorem guarded_checkRange_indexAddr {s : State} {n : Nat} (h : s.index.toNat + n ≤ 0xFFF) (k : StepResult) :
    guarded (checkRange (indexAddr s 0) (n + 1)) k = k := by
  have hcheck : checkRange (indexAddr s 0) (n + 1) = none := checkRange_none.2 (.inr (by simp only [indexAddr]; omega))
  rw [hcheck, guarded_none]

/-- Otherwise the check reports the lowest of them that does not (R59). -/
theorem checkRange_indexAddr_fault {s : State} {n : Nat} (h : 0xFFF < s.index.toNat + n) :
    checkRange (indexAddr s 0) (n + 1) = some (.memoryFault (max s.index.toNat 0x1000)) :=
  checkRange_some.2 ⟨by omega, by simp only [indexAddr]; omega, rfl⟩

section writeBlock
variable {s : State} {bs : List Byte} {n : Nat}

/-- A block of `n + 1` bytes written from `I` on holds byte `k` at `I + k`. -/
theorem read_writeBlock_indexAddr (hm : Memory.wf s.mem = true) (hlen : bs.length = n + 1)
    (h : s.index.toNat + n ≤ 0xFFF) (k : Nat) (hk : k < bs.length) :
    Memory.read (Memory.writeBlock s.mem (indexAddr s 0) bs) (indexAddr s k) = bs[k] :=
  Memory.read_writeBlock_inside hm (by simp only [indexAddr]; omega) k hk

/-- It leaves every byte before `I` and after `I + n` alone. -/
theorem read_writeBlock_off_indexAddr (hlen : bs.length = n + 1) {a : Nat} (ha : a < indexAddr s 0 ∨ indexAddr s n < a) :
    Memory.read (Memory.writeBlock s.mem (indexAddr s 0) bs) a = Memory.read s.mem a :=
  Memory.read_writeBlock_outside bs s.mem (by simp only [indexAddr] at ha ⊢; omega)

end writeBlock

/-- One past an existing byte is at most 0x1000, so advancing `I` there needs no reduction (R164, R165). -/
theorem toNat_ofNat_indexAddr_succ {s : State} {n : Nat} (h : s.index.toNat + n ≤ 0xFFF) :
    (BitVec.ofNat 16 (indexAddr s (n + 1))).toNat = s.index.toNat + n + 1 := by
  rw [BitVec.toNat_ofNat, indexAddr]
  omega

/-! ### ANNN -/

/-- Settles O38: the arm is one write of `I`, with the operand zero-extended. -/
theorem loadIndexSetsI : Obligations.LoadIndexSetsI := by
  refine ⟨encodes_of_op (n := 10) rfl fun w hop => by simp [decode, hop], fun nnn s => ?_⟩
  exact ⟨_, exec_ldINNN nnn s, toNat_addrOperand nnn, rfl, rfl,
    (keepsExcept_setIndex s _).trans (keepsExcept_finish _ _)⟩

/-! ### FX33 -/

/-- Each quotient or remainder of a byte is itself a byte. -/
theorem toNat_bcdDigits (b : Byte) :
    (bcdDigits b)[0].toNat = b.toNat / 100 ∧ (bcdDigits b)[1].toNat = b.toNat / 10 % 10 ∧
      (bcdDigits b)[2].toNat = b.toNat % 10 := by
  have hb := b.isLt
  simp only [bcdDigits, List.getElem_cons_zero, List.getElem_cons_succ, BitVec.toNat_ofNat]
  omega

/-- Settles O40: the arm is one block write of the three digits, behind the range check. -/
theorem bcdStoresDigits : Obligations.BcdStoresDigits := by
  refine ⟨encodes_of_op_byte (o := 15) (n := 0x33) rfl rfl fun w hop hnn => by simp [decode, hop, decodeGroupF, hnn],
    fun x s hm => ⟨fun h => ?_, fun h => exec_fault.2 (checkRange_indexAddr_fault h)⟩⟩
  have hread := read_writeBlock_indexAddr hm (length_bcdDigits (s.getV x)) h
  obtain ⟨hundreds, tens, ones⟩ := toNat_bcdDigits (s.getV x)
  exact ⟨_, (exec_ldBVx x s).trans (guarded_checkRange_indexAddr h _),
    (congrArg BitVec.toNat (hread 0 (by simp))).trans hundreds, (congrArg BitVec.toNat (hread 1 (by simp))).trans tens,
    (congrArg BitVec.toNat (hread 2 (by simp))).trans ones,
    fun a ha => read_writeBlock_off_indexAddr (length_bcdDigits _) ha, rfl, rfl,
    (keepsExcept_setMem s _).trans (keepsExcept_finish _ _)⟩

/-! ### FX55 -/

/-- Settles O41: the arm is one block write of the registers, behind the range check, and then the new `I`. -/
theorem storeBlockStoresRegisters : Obligations.StoreBlockStoresRegisters := by
  refine ⟨encodes_of_op_byte (o := 15) (n := 0x55) rfl rfl fun w hop hnn => by simp [decode, hop, decodeGroupF, hnn],
    fun x s hm => ⟨fun h => ?_, fun h => exec_fault.2 (checkRange_indexAddr_fault h)⟩⟩
  have hread (k : Reg) (hk : k ≤ x) :
      Memory.read (Memory.writeBlock s.mem (indexAddr s 0) (regBlock s x)) (indexAddr s k.val) = s.getV k := by
    have hlt : k.val < (regBlock s x).length := by rw [length_regBlock]; exact Nat.lt_succ_iff.2 hk
    rw [read_writeBlock_indexAddr hm (length_regBlock s x) h k.val hlt, getElem_regBlock]
    rfl
  exact ⟨_, (exec_ldMemVx x s).trans (guarded_checkRange_indexAddr h _), hread,
    fun a ha => read_writeBlock_off_indexAddr (length_regBlock s x) ha,
    toNat_ofNat_indexAddr_succ h, rfl, rfl,
    ((keepsExcept_setMem s _).trans (keepsExcept_setIndex _ _)).trans (keepsExcept_finish _ _)⟩

/-! ### FX65 -/

/-- Settles O42: the arm is one block load of the registers, VF as any other, behind the range check, and then the new
`I`. -/
theorem loadBlockLoadsRegisters : Obligations.LoadBlockLoadsRegisters := by
  refine ⟨encodes_of_op_byte (o := 15) (n := 0x65) rfl rfl fun w hop hnn => by simp [decode, hop, decodeGroupF, hnn],
    fun x s => ⟨fun h => ?_, fun h => exec_fault.2 (checkRange_indexAddr_fault h)⟩⟩
  have hregs := getV_setRegs_loadRegs s s.mem (indexAddr s 0) x
  have hframe := ((keepsExcept_setRegs_loadRegs s s.mem (indexAddr s 0) x).trans
    (keepsExcept_setIndex _ (BitVec.ofNat 16 (indexAddr s (x.val + 1))))).trans (keepsExcept_finish _ (s.pc + 2))
  simp only [List.append_nil, List.nil_append] at hframe
  exact ⟨_, (exec_ldVxMem x s).trans (guarded_checkRange_indexAddr h _),
    fun k hk => (hregs k).trans (if_pos hk), fun k hk => (hregs k).trans (if_neg (not_le.2 hk)),
    toNat_ofNat_indexAddr_succ h, rfl, rfl, hframe⟩

end Sys2Proof.Machine
end

section
/-! R227, R229: no check that a step makes raises `RomTooLarge`. -/

namespace Sys2Proof.Machine

/-- A fetch that faults reports an address past memory (R56, R91). -/
theorem fetch_error {s : State} {f : Fault} (h : fetch s = .error f) : ∃ a, f = .memoryFault a := by
  by_cases hpc : s.pc.toNat ≤ 0xFFE
  · rw [fetch_ok hpc] at h
    cases h
  · rw [fetch_fault (by omega)] at h
    cases h
    exact ⟨_, rfl⟩

/-- The program's length is no part of any arm's check (R222 to R225). -/
theorem exec_ne_romTooLarge (i : Instr) (s : State) (n : Nat) : exec i s ≠ .fault (.romTooLarge n) := by
  rw [Ne, exec_fault]
  cases i
  case ret | call | skp | sknp => simp [ArmFault]
  case ldBVx | ldMemVx | ldVxMem => simp [ArmFault, checkRange_some]
  case drw => simp [ArmFault, checkRange_some, checkPixels_some]
  -- the other arms raise no fault
  all_goals exact id

/-- A step's fault is the fetch's or an arm's (R229), and neither is `RomTooLarge`. -/
theorem step_ne_romTooLarge (s : State) (n : Nat) : step s ≠ .fault (.romTooLarge n) := by
  intro h
  obtain hfetch | ⟨w, i, -, -, hexec⟩ := step_fault h
  · obtain ⟨a, ha⟩ := fetch_error hfetch
    cases ha
  · exact exec_ne_romTooLarge i s n hexec

/-- Settles O20: the refused load settles to the state before it, and a step only raises the faults of its own checks. -/
theorem romTooLargeOnlyFromLoad : Obligations.RomTooLargeOnlyFromLoad :=
  ⟨fun font _ s hlen => transact_load_too_large font s hlen, step_ne_romTooLarge⟩

end Sys2Proof.Machine
end

section
/-! R261, R283: a reload leaves no residue, and `drawFlag` is cleared by the host only. -/

namespace Sys2Proof.Machine

/-- Settles O57: what a successful `load` leaves takes only the draw counter from the state before it, and hands it on. -/
theorem reloadReinitialises : Obligations.ReloadReinitialises := by
  refine fun font rom s s' => ⟨fun hlen => ⟨?_, ?_⟩, fun hlen => ?_⟩
  · rw [transact_load_ok font s hlen, transact_load_ok font s' hlen]
  · rw [transact_load_ok font s hlen, transact_load_ok font _ hlen]
  · rw [transact_load_too_large font s hlen]

/-- An arm leaves `drawFlag` alone, but for those of 00E0 and DXYN, which set it (R32). -/
theorem exec_next_drawFlag {i : Instr} {s u : State} (h : exec i s = .next u) :
    u.drawFlag = s.drawFlag ∨ (.drawFlag ∈ partsWritten i ∧ u.drawFlag = true) := by
  cases i
  case cls =>
    cases h
    exact .inr ⟨by simp [partsWritten], rfl⟩
  case drw =>
    rw [exec_drw, guarded_next, guarded_next] at h
    obtain ⟨-, -, hnext⟩ := h
    cases hnext
    exact .inr ⟨by simp [partsWritten], rfl⟩
  all_goals refine .inl ?_
  case ret | call | skp | sknp =>
    simp only [exec_ret, exec_call, exec_skp, exec_sknp] at h
    split at h <;> cases h
    rfl
  case ldVxK =>
    rw [exec_ldVxK] at h
    split at h <;> cases h <;> rfl
  case ldBVx | ldMemVx | ldVxMem =>
    simp only [exec_ldBVx, exec_ldMemVx, exec_ldVxMem, guarded_next] at h
    obtain ⟨-, hnext⟩ := h
    cases hnext
    rfl
  -- the arms that always complete end in `finish` by definition (Laws/Step.lean)
  all_goals cases h; rfl

/-- A step that does not fault keeps a set `drawFlag`: its arm does, and the timer phase does not touch it. -/
theorem step_next_drawFlag {s t : State} (h : step s = .next t) (hset : s.drawFlag = true) : t.drawFlag = true := by
  obtain ⟨w, u, -, rfl, ⟨-, rfl⟩ | ⟨i, -, hexec⟩⟩ := step_next h
  · exact hset
  · obtain hkept | ⟨-, hdrawn⟩ := exec_next_drawFlag hexec
    · exact hkept.trans hset
    · exact hdrawn

/-- The host's `step` keeps a set `drawFlag`, faulted or not (R226). -/
theorem transact_step_drawFlag (font : Font) {s : State} (hset : s.drawFlag = true) :
    (transact font .step s).1.drawFlag = true := by
  cases hstep : step s with
  | next t =>
    rw [transact_step_next font hstep]
    exact step_next_drawFlag hstep hset
  | fault f =>
    rw [transact_step_fault font hstep]
    exact hset
  | refused r => exact absurd hstep (step_ne_refused s r)

/-- Settles O58: of the other three transactions, a step keeps a set `drawFlag`, and `setKey` and a read do not touch it. -/
theorem drawFlagClearedOnlyByConsume : Obligations.DrawFlagClearedOnlyByConsume := by
  refine ⟨fun _ _ => rfl, fun font t s hset hclear => ?_⟩
  cases t with
  | load rom => exact .inr ⟨rom, rfl⟩
  | consumeDraw => exact .inl rfl
  | step => exact absurd (transact_step_drawFlag font hset) (Bool.eq_false_iff.1 hclear)
  | setKey | read => exact absurd hset (Bool.eq_false_iff.1 hclear)

end Sys2Proof.Machine
end

section
/-! R71 to R84: the encoder and the decoder are inverse to each other, up to the bits the decoder ignores. -/

namespace Sys2Proof.Machine

/-! ### Decoding what the encoder writes -/

/-- A sprite height that fits its field comes back out of it (R73). -/
theorem toNat_ofNat_height {x y : Reg} {n : Nat} (h : (Instr.drw x y n).wf = true) : (BitVec.ofNat 4 n).toNat = n := by
  have hn : n ≤ 15 := of_decide_eq_true h
  rw [BitVec.toNat_ofNat, Nat.mod_eq_of_lt (by omega)]

/-- Every layout gives back the fields that the decoder matches on and the operands it cuts out (R71, R72). -/
theorem decode_encode {i : Instr} (h : i.wf = true) : decode (encode i) = .instr i := by
  cases i
  case cls | ret => rfl
  case jp | call | ldINNN | jpV0 => simp [encode, decode]
  case seVxNN | sneVxNN | ldVxNN | addVxNN | rndVxNN => simp [encode, decode]
  case seVxVy | sneVxVy => simp [encode, decode]
  case drw => simp [encode, decode, toNat_ofNat_height h]
  case ldVxVy | orVxVy | andVxVy | xorVxVy | addVxVy | subVxVy | shrVx | subnVxVy | shlVx =>
    simp [encode, decode, decodeGroup8]
  case skp | sknp => simp [encode, decode, decodeGroupE]
  case ldVxDT | ldDTVx | ldSTVx | ldVxK | addIVx | ldFVx | ldBVx | ldMemVx | ldVxMem =>
    simp [encode, decode, decodeGroupF]

/-- Settles O1: the word comes back by `decode_encode`, and the bytes of a word decode as the word. -/
theorem decodeEncodeRoundTrip : Obligations.DecodeEncodeRoundTrip := by
  refine fun i h => ⟨decode_encode h, ?_⟩
  have hbytes := decodeBytes_wordBytes (encode i) []
  rwa [List.append_nil, decode_encode h] at hbytes

/-! ### A word put together from its fields -/

/-- A word is its high nibble above its low 12 bits. -/
theorem encodeA_fields {w : Word} {op : BitVec 4} (hop : fieldOp w = op.toNat) : encodeA op (fieldNNN w) = w := by
  apply BitVec.eq_of_toNat_eq
  have hhigh := fieldOp_eq_div w
  have hlow := toNat_fieldNNN w
  rw [encodeA, BitVec.toNat_append, ← Nat.shiftLeft_add_eq_or_of_lt (fieldNNN w).isLt, Nat.shiftLeft_eq]
  omega

theorem ofNat_fieldX_append_fieldNN (w : Word) : BitVec.ofNat 4 (fieldX w).val ++ fieldNN w = fieldNNN w := by
  apply BitVec.eq_of_toNat_eq
  have hx := fieldX_eq_div_mod w
  have hnn := toNat_fieldNN w
  have hnnn := toNat_fieldNNN w
  rw [BitVec.toNat_append, ← Nat.shiftLeft_add_eq_or_of_lt (fieldNN w).isLt, Nat.shiftLeft_eq, BitVec.toNat_ofNat]
  omega

theorem ofNat_fieldY_append_fieldN {w : Word} {n : BitVec 4} (hn : fieldN w = n.toNat) :
    BitVec.ofNat 4 (fieldY w).val ++ n = fieldNN w := by
  apply BitVec.eq_of_toNat_eq
  have hy := fieldY_eq_div_mod w
  have hlow := fieldN_eq_mod w
  have hnn := toNat_fieldNN w
  rw [BitVec.toNat_append, ← Nat.shiftLeft_add_eq_or_of_lt n.isLt, Nat.shiftLeft_eq, BitVec.toNat_ofNat]
  omega

theorem encodeXK_fields {w : Word} {op : BitVec 4} (hop : fieldOp w = op.toNat) :
    encodeXK op (fieldX w) (fieldNN w) = w := by
  rw [encodeXK_eq_encodeA, ofNat_fieldX_append_fieldNN, encodeA_fields hop]

/-- The same with the low byte known by its number, as the groups E and F match it. -/
theorem encodeXK_of_fieldNN {w : Word} {op : BitVec 4} {nn : Byte} (hop : fieldOp w = op.toNat)
    (hnn : (fieldNN w).toNat = nn.toNat) : encodeXK op (fieldX w) nn = w := by
  rw [← BitVec.eq_of_toNat_eq hnn, encodeXK_fields hop]

theorem encodeXYN_fields {w : Word} {op n : BitVec 4} (hop : fieldOp w = op.toNat) (hn : fieldN w = n.toNat) :
    encodeXYN op (fieldX w) (fieldY w) n = w := by
  rw [encodeXYN_eq, ofNat_fieldY_append_fieldN hn, encodeXK_fields hop]

/-! ### The bits an instruction keeps -/

theorem and_FFFF (w : Word) : w &&& 0xFFFF = w := BitVec.and_allOnes

/-- Groups 5 and 9 ignore the low nibble (R77). -/
theorem and_FFF0 {w : Word} {op : BitVec 4} (hop : fieldOp w = op.toNat) :
    w &&& 0xFFF0 = encodeXYN op (fieldX w) (fieldY w) 0 := by
  have hmask : (0xFFF0 : Word) = BitVec.allOnes 12 ++ 0#4 := rfl
  conv_lhs => rw [← encodeXYN_fields hop (n := w.extractLsb' 0 4) rfl, hmask]
  refine BitVec.and_append.trans ?_
  rw [BitVec.and_zero, BitVec.and_allOnes]
  rfl

/-- Group 0 ignores bits 11-8 (R76). -/
theorem and_F0FF {w : Word} {op : BitVec 4} {nn : Byte} (hop : fieldOp w = op.toNat)
    (hnn : (fieldNN w).toNat = nn.toNat) : w &&& 0xF0FF = op ++ 0#4 ++ nn := by
  conv_lhs => rw [← encodeXK_of_fieldNN hop hnn, encodeXK_and_F0FF]

/-! ### Encoding what the decoder gives -/

/-- A decoded instruction is well formed, and its word is the decoded one but for the ignored bits (R76, R77). -/
theorem encode_of_decode {w : Word} {i : Instr} (h : decode w = .instr i) :
    i.wf = true ∧ encode i = w &&& keptBits i := by
  -- one case per high nibble, in the order of `decode`
  unfold decode at h
  split at h
  case h_1 hop =>
    unfold decodeGroup0 at h
    split at h <;> cases h
    · exact ⟨rfl, (and_F0FF (op := 0x0) (nn := 0xE0) hop ‹_›).symm⟩
    · exact ⟨rfl, (and_F0FF (op := 0x0) (nn := 0xEE) hop ‹_›).symm⟩
  case h_9 hop =>
    unfold decodeGroup8 at h
    split at h <;> cases h
    all_goals exact ⟨rfl, (encodeXYN_fields hop ‹_›).trans (and_FFFF w).symm⟩
  case h_15 hop | h_16 hop =>
    simp only [decodeGroupE, decodeGroupF] at h
    split at h <;> cases h
    all_goals exact ⟨rfl, (encodeXK_of_fieldNN hop ‹_›).trans (and_FFFF w).symm⟩
  all_goals cases h
  case h_2 hop | h_3 hop | h_11 hop | h_12 hop => exact ⟨rfl, (encodeA_fields hop).trans (and_FFFF w).symm⟩
  case h_4 hop | h_5 hop | h_7 hop | h_8 hop | h_13 hop =>
    exact ⟨rfl, (encodeXK_fields hop).trans (and_FFFF w).symm⟩
  case h_6 hop | h_10 hop => exact ⟨rfl, (and_FFF0 hop).symm⟩
  case h_14 hop =>
    have hn : fieldN w ≤ 15 := Nat.le_of_lt_succ (BitVec.isLt _)
    have hwf : (Instr.drw (fieldX w) (fieldY w) (fieldN w)).wf = true := decide_eq_true hn
    exact ⟨hwf, (encodeXYN_fields hop (toNat_ofNat_height hwf).symm).trans (and_FFFF w).symm⟩

/-- Settles O4: the second part of `encode_of_decode`. -/
theorem encodeInvertsDecode : Obligations.EncodeInvertsDecode := fun _ _ h => (encode_of_decode h).2

/-! ### The row of a decoded word -/

open Laws.EncodesToRow in
/-- Every instruction has its lemma in the family of Laws/PerInstr.lean. -/
theorem encodesToRow : ∀ i : Instr, Laws.EncodesToRow.Statement i
  | .cls => cls | .ret => ret | .jp nnn => jp nnn | .call nnn => call nnn
  | .seVxNN x nn => seVxNN x nn | .sneVxNN x nn => sneVxNN x nn
  | .seVxVy x y => seVxVy x y | .sneVxVy x y => sneVxVy x y
  | .ldVxNN x nn => ldVxNN x nn | .addVxNN x nn => addVxNN x nn | .ldVxVy x y => ldVxVy x y | .orVxVy x y => orVxVy x y
  | .andVxVy x y => andVxVy x y | .xorVxVy x y => xorVxVy x y
  | .addVxVy x y => addVxVy x y | .subVxVy x y => subVxVy x y
  | .shrVx x y => shrVx x y | .subnVxVy x y => subnVxVy x y | .shlVx x y => shlVx x y
  | .ldINNN nnn => ldINNN nnn | .jpV0 nnn => jpV0 nnn | .rndVxNN x nn => rndVxNN x nn | .drw x y n => drw x y n
  | .skp x => skp x | .sknp x => sknp x | .ldVxDT x => ldVxDT x | .ldDTVx x => ldDTVx x | .ldSTVx x => ldSTVx x
  | .ldVxK x => ldVxK x | .addIVx x => addIVx x | .ldFVx x => ldFVx x | .ldBVx x => ldBVx x
  | .ldMemVx x => ldMemVx x | .ldVxMem x => ldVxMem x

/-- A row's mask reads no bit that its instruction's decoding ignores. -/
theorem keptBits_and_mask {i : Instr} {r : OpcodeRow} (h : opcodeTable[rowIndex i]? = some r) :
    keptBits i &&& r.mask = r.mask := by
  cases i <;> cases h
  case cls | ret => exact BitVec.and_self
  case seVxVy | sneVxVy => exact (by decide : (0xFFF0 : Word) &&& 0xF000 = 0xF000)
  all_goals exact BitVec.allOnes_and

/-- The encoder's word selects the instruction's row, and the decoded word differs from it only in bits that the mask
does not read. -/
theorem selects_of_decode {w : Word} {i : Instr} (h : decode w = .instr i) :
    ∃ r, opcodeTable[rowIndex i]? = some r ∧ r.selects w = true := by
  obtain ⟨hwf, hencode⟩ := encode_of_decode h
  obtain ⟨r, hrow, hselects⟩ := encodesToRow i hwf
  refine ⟨r, hrow, ?_⟩
  rwa [OpcodeRow.selects, hencode, BitVec.and_assoc, keptBits_and_mask hrow] at hselects

/-- A word that selects no row is unknown (R79). -/
theorem decode_of_selects_none {w : Word} (h : ∀ r ∈ opcodeTable, r.selects w = false) : decode w = .unknown w := by
  cases hd : decode w with
  | unknown u => rw [decode_unknown_eq hd]
  | instr i =>
    obtain ⟨r, hrow, hselects⟩ := selects_of_decode hd
    exact absurd hselects (Bool.eq_false_iff.1 (h r (List.mem_of_getElem? hrow)))

/-! ### The rows of the table that no earlier statement decodes -/

theorem encodes_cls : Encodes 0xF0FF 0x00E0 (fun _ => .cls) :=
  encodes_of_op_byte (o := 0) (n := 0xE0) rfl rfl fun w hop hnn => by simp [decode, hop, decodeGroup0, hnn]
theorem encodes_ret : Encodes 0xF0FF 0x00EE (fun _ => .ret) :=
  encodes_of_op_byte (o := 0) (n := 0xEE) rfl rfl fun w hop hnn => by simp [decode, hop, decodeGroup0, hnn]
theorem encodes_seVxVy : Encodes 0xF000 0x5000 (fun w => .seVxVy (fieldX w) (fieldY w)) :=
  encodes_of_op (n := 5) rfl fun w hop => by simp [decode, hop]
theorem encodes_sneVxVy : Encodes 0xF000 0x9000 (fun w => .sneVxVy (fieldX w) (fieldY w)) :=
  encodes_of_op (n := 9) rfl fun w hop => by simp [decode, hop]
theorem encodes_addVxNN : Encodes 0xF000 0x7000 (fun w => .addVxNN (fieldX w) (fieldNN w)) :=
  encodes_of_op (n := 7) rfl fun w hop => by simp [decode, hop]
theorem encodes_orVxVy : Encodes 0xF00F 0x8001 (fun w => .orVxVy (fieldX w) (fieldY w)) :=
  encodes_of_op_nibble (o := 8) (n := 1) rfl rfl fun w hop hn => by simp [decode, hop, decodeGroup8, hn]
theorem encodes_andVxVy : Encodes 0xF00F 0x8002 (fun w => .andVxVy (fieldX w) (fieldY w)) :=
  encodes_of_op_nibble (o := 8) (n := 2) rfl rfl fun w hop hn => by simp [decode, hop, decodeGroup8, hn]
theorem encodes_xorVxVy : Encodes 0xF00F 0x8003 (fun w => .xorVxVy (fieldX w) (fieldY w)) :=
  encodes_of_op_nibble (o := 8) (n := 3) rfl rfl fun w hop hn => by simp [decode, hop, decodeGroup8, hn]
theorem encodes_subVxVy : Encodes 0xF00F 0x8005 (fun w => .subVxVy (fieldX w) (fieldY w)) :=
  encodes_of_op_nibble (o := 8) (n := 5) rfl rfl fun w hop hn => by simp [decode, hop, decodeGroup8, hn]
theorem encodes_shrVx : Encodes 0xF00F 0x8006 (fun w => .shrVx (fieldX w) (fieldY w)) :=
  encodes_of_op_nibble (o := 8) (n := 6) rfl rfl fun w hop hn => by simp [decode, hop, decodeGroup8, hn]
theorem encodes_subnVxVy : Encodes 0xF00F 0x8007 (fun w => .subnVxVy (fieldX w) (fieldY w)) :=
  encodes_of_op_nibble (o := 8) (n := 7) rfl rfl fun w hop hn => by simp [decode, hop, decodeGroup8, hn]
theorem encodes_shlVx : Encodes 0xF00F 0x800E (fun w => .shlVx (fieldX w) (fieldY w)) :=
  encodes_of_op_nibble (o := 8) (n := 14) rfl rfl fun w hop hn => by simp [decode, hop, decodeGroup8, hn]
theorem encodes_jpV0 : Encodes 0xF000 0xB000 (fun w => .jpV0 (fieldNNN w)) :=
  encodes_of_op (n := 11) rfl fun w hop => by simp [decode, hop]
theorem encodes_rndVxNN : Encodes 0xF000 0xC000 (fun w => .rndVxNN (fieldX w) (fieldNN w)) :=
  encodes_of_op (n := 12) rfl fun w hop => by simp [decode, hop]
theorem encodes_drw : Encodes 0xF000 0xD000 (fun w => .drw (fieldX w) (fieldY w) (fieldN w)) :=
  encodes_of_op (n := 13) rfl fun w hop => by simp [decode, hop]
theorem encodes_skp : Encodes 0xF0FF 0xE09E (fun w => .skp (fieldX w)) :=
  encodes_of_op_byte (o := 14) (n := 0x9E) rfl rfl fun w hop hnn => by simp [decode, hop, decodeGroupE, hnn]
theorem encodes_sknp : Encodes 0xF0FF 0xE0A1 (fun w => .sknp (fieldX w)) :=
  encodes_of_op_byte (o := 14) (n := 0xA1) rfl rfl fun w hop hnn => by simp [decode, hop, decodeGroupE, hnn]
theorem encodes_ldVxDT : Encodes 0xF0FF 0xF007 (fun w => .ldVxDT (fieldX w)) :=
  encodes_of_op_byte (o := 15) (n := 0x07) rfl rfl fun w hop hnn => by simp [decode, hop, decodeGroupF, hnn]
theorem encodes_ldDTVx : Encodes 0xF0FF 0xF015 (fun w => .ldDTVx (fieldX w)) :=
  encodes_of_op_byte (o := 15) (n := 0x15) rfl rfl fun w hop hnn => by simp [decode, hop, decodeGroupF, hnn]
theorem encodes_ldSTVx : Encodes 0xF0FF 0xF018 (fun w => .ldSTVx (fieldX w)) :=
  encodes_of_op_byte (o := 15) (n := 0x18) rfl rfl fun w hop hnn => by simp [decode, hop, decodeGroupF, hnn]
theorem encodes_ldVxK : Encodes 0xF0FF 0xF00A (fun w => .ldVxK (fieldX w)) :=
  encodes_of_op_byte (o := 15) (n := 0x0A) rfl rfl fun w hop hnn => by simp [decode, hop, decodeGroupF, hnn]
theorem encodes_addIVx : Encodes 0xF0FF 0xF01E (fun w => .addIVx (fieldX w)) :=
  encodes_of_op_byte (o := 15) (n := 0x1E) rfl rfl fun w hop hnn => by simp [decode, hop, decodeGroupF, hnn]
theorem encodes_ldFVx : Encodes 0xF0FF 0xF029 (fun w => .ldFVx (fieldX w)) :=
  encodes_of_op_byte (o := 15) (n := 0x29) rfl rfl fun w hop hnn => by simp [decode, hop, decodeGroupF, hnn]

/-- Every word that selects a row decodes to that row's instruction (R75, R78). -/
theorem encodes_opcodeTable : ∀ r ∈ opcodeTable, ∃ f, Encodes r.mask r.matchWord f := by
  obtain ⟨encodes_jp, -⟩ := jumpSetsPc
  obtain ⟨encodes_call, -⟩ := callPushesItsAddress
  obtain ⟨encodes_seVxNN, encodes_sneVxNN, -⟩ := skipOnImmediate
  obtain ⟨encodes_ldVxNN, encodes_ldVxVy, -⟩ := loadAndCopyRegister
  obtain ⟨encodes_addVxVy, -⟩ := addSetsCarry
  obtain ⟨encodes_ldINNN, -⟩ := loadIndexSetsI
  obtain ⟨encodes_ldBVx, -⟩ := bcdStoresDigits
  obtain ⟨encodes_ldMemVx, -⟩ := storeBlockStoresRegisters
  obtain ⟨encodes_ldVxMem, -⟩ := loadBlockLoadsRegisters
  simp only [opcodeTable, opcodeRowsLow, opcodeRowsHigh, List.cons_append, List.nil_append, List.forall_mem_cons]
  exact ⟨⟨_, encodes_cls⟩, ⟨_, encodes_ret⟩, ⟨_, encodes_jp⟩, ⟨_, encodes_call⟩,
    ⟨_, encodes_seVxNN⟩, ⟨_, encodes_sneVxNN⟩, ⟨_, encodes_seVxVy⟩, ⟨_, encodes_sneVxVy⟩,
    ⟨_, encodes_ldVxNN⟩, ⟨_, encodes_addVxNN⟩, ⟨_, encodes_ldVxVy⟩, ⟨_, encodes_orVxVy⟩,
    ⟨_, encodes_andVxVy⟩, ⟨_, encodes_xorVxVy⟩, ⟨_, encodes_addVxVy⟩, ⟨_, encodes_subVxVy⟩,
    ⟨_, encodes_shrVx⟩, ⟨_, encodes_subnVxVy⟩, ⟨_, encodes_shlVx⟩,
    ⟨_, encodes_ldINNN⟩, ⟨_, encodes_jpV0⟩, ⟨_, encodes_rndVxNN⟩, ⟨_, encodes_drw⟩,
    ⟨_, encodes_skp⟩, ⟨_, encodes_sknp⟩, ⟨_, encodes_ldVxDT⟩, ⟨_, encodes_ldDTVx⟩, ⟨_, encodes_ldSTVx⟩,
    ⟨_, encodes_ldVxK⟩, ⟨_, encodes_addIVx⟩, ⟨_, encodes_ldFVx⟩, ⟨_, encodes_ldBVx⟩,
    ⟨_, encodes_ldMemVx⟩, ⟨_, encodes_ldVxMem⟩, List.forall_mem_nil _⟩


theorem selects_none_of_decode {w u : Word} (h : decode w = .unknown u) : ∀ r ∈ opcodeTable, r.selects w = false := by
  intro r hr
  obtain ⟨f, hf⟩ := encodes_opcodeTable r hr
  refine Bool.eq_false_iff.2 fun hselects => ?_
  rw [hf w (beq_iff_eq.1 hselects)] at h
  cases h

/-! ### At most one row -/

/-- Two rows disagree on a bit that both masks read. -/
theorem opcodeTable_pairwise_disagree :
    opcodeTable.Pairwise fun r r' => r.matchWord &&& r'.mask ≠ r'.matchWord &&& r.mask := by decide

theorem not_selects_both {r r' : OpcodeRow} (h : r.matchWord &&& r'.mask ≠ r'.matchWord &&& r.mask) (w : Word) :
    ¬ (r.selects w = true ∧ r'.selects w = true) := by
  rintro ⟨hr, hr'⟩
  apply h
  rw [← beq_iff_eq.1 hr, ← beq_iff_eq.1 hr', BitVec.and_assoc, BitVec.and_assoc, BitVec.and_comm r.mask]

/-- Of a list no two members of which satisfy `p` together, at most one does. -/
theorem length_filter_le_one {α : Type} {p : α → Bool} {l : List α}
    (h : l.Pairwise fun a b => ¬ (p a = true ∧ p b = true)) : (l.filter p).length ≤ 1 := by
  have hpair := h.filter p
  have hmem := fun a (ha : a ∈ l.filter p) => (List.mem_filter.1 ha).2
  match l.filter p, hpair, hmem with
  | [], _, _ => exact Nat.zero_le 1
  | [_], _, _ => exact le_refl 1
  | a :: b :: _, hpair, hmem =>
    have hnot := List.rel_of_pairwise_cons hpair (List.mem_cons_self ..)
    exact absurd ⟨hmem a (by simp), hmem b (by simp)⟩ hnot

/-- Settles O3: a decoded word selects its instruction's row, an unknown word none, and two rows never overlap. -/
theorem decoderFollowsOpcodeTable : Obligations.DecoderFollowsOpcodeTable := by
  refine fun w => ⟨fun i h => ⟨(encode_of_decode h).1, selects_of_decode h⟩,
    fun u h => ⟨decode_unknown_eq h, selects_none_of_decode h⟩, length_filter_le_one ?_⟩
  exact opcodeTable_pairwise_disagree.imp fun h => not_selects_both h w

/-- Settles O5: twelve evaluations of the decoder. -/
theorem spelledWordsDecode : Obligations.SpelledWordsDecode := by
  unfold Obligations.SpelledWordsDecode
  decide

end Sys2Proof.Machine
end

section
/-! R22, R28, R34: what an arm leaves unchanged, and the invariant that steps and host transactions keep. -/

namespace Sys2Proof.Machine

/-! ### Frames of the other updates -/

theorem keepsExcept_popped (s : State) : KeepsExcept [] [.sp] s s.popped where
  regs _ _ := rfl
  parts p hp := by cases p <;> simp_all [Part.same]

theorem keepsExcept_draw (s : State) (fb : Framebuffer) : KeepsExcept [] [.fb, .drawFlag] s (s.draw fb) where
  regs _ _ := rfl
  parts p hp := by cases p <;> simp_all [Part.same]

theorem keepsExcept_setDT (s : State) (b : Byte) : KeepsExcept [] [.dt] s (s.setDT b) where
  regs _ _ := rfl
  parts p hp := by cases p <;> simp_all [Part.same]

theorem keepsExcept_setST (s : State) (b : Byte) : KeepsExcept [] [.st] s (s.setST b) where
  regs _ _ := rfl
  parts p hp := by cases p <;> simp_all [Part.same]

theorem keepsExcept_nextDraw (s : State) : KeepsExcept [] [.draws] s s.nextDraw where
  regs _ _ := rfl
  parts p hp := by cases p <;> simp_all [Part.same]

theorem keepsExcept_report (s : State) (r : Report) : KeepsExcept [] [] s (s.report r) where
  regs _ _ := rfl
  parts p _ := by cases p <;> simp [Part.same]

/-- A change of the listed registers and parts is one of any longer list's. -/
theorem KeepsExcept.mono {r r' : List Reg} {p p' : List Part} {s t : State} (h : KeepsExcept r p s t) (hr : r ⊆ r')
    (hp : p ⊆ p') : KeepsExcept r' p' s t where
  regs k hk := h.regs k fun hmem => hk (hr hmem)
  parts q hq := h.parts q fun hmem => hq (hp hmem)

/-- `finish` adds nothing to a frame: `pc` and the outcome are no parts. -/
theorem KeepsExcept.finish {r : List Reg} {p : List Part} {s t : State} (h : KeepsExcept r p s t) (pc : Word) :
    KeepsExcept r p s (t.finish pc) :=
  (h.trans (keepsExcept_finish t pc)).mono (by simp) (by simp)

/-- Settles O15: the frame of each arm is that of the named updates it makes. -/
theorem instructionFrame : Obligations.InstructionFrame := by
  intro i s t h
  cases i
  case ret =>
    rw [exec_ret] at h
    split at h <;> cases h
    exact (keepsExcept_popped s).finish _
  case call =>
    rw [exec_call] at h
    split at h <;> cases h
    exact (keepsExcept_pushed s s.pc ‹_›).finish _
  case skp | sknp =>
    simp only [exec_skp, exec_sknp] at h
    split at h <;> cases h
    exact keepsExcept_finish s _
  case ldVxK x =>
    rw [exec_ldVxK] at h
    split at h <;> cases h
    · exact (keepsExcept_setV s x _).finish _
    · exact (keepsExcept_report s _).mono (List.nil_subset _) (List.nil_subset _)
  case ldBVx =>
    rw [exec_ldBVx, guarded_next] at h
    obtain ⟨-, hnext⟩ := h
    cases hnext
    exact (keepsExcept_setMem s _).finish _
  case ldMemVx =>
    rw [exec_ldMemVx, guarded_next] at h
    obtain ⟨-, hnext⟩ := h
    cases hnext
    exact ((keepsExcept_setMem s _).trans (keepsExcept_setIndex _ _)).finish _
  case ldVxMem x =>
    rw [exec_ldVxMem, guarded_next] at h
    obtain ⟨-, hnext⟩ := h
    cases hnext
    exact (((keepsExcept_setRegs_loadRegs s s.mem _ x).trans (keepsExcept_setIndex _ _)).finish _).mono (by simp)
      (List.Subset.refl _)
  case drw =>
    rw [exec_drw, guarded_next, guarded_next] at h
    obtain ⟨-, -, hnext⟩ := h
    cases hnext
    exact ((keepsExcept_draw s _).trans (keepsExcept_setV _ vf _)).finish _
  -- the other arms always complete, with these updates by definition (Laws/Step.lean)
  all_goals cases h
  case cls => exact (keepsExcept_draw s _).finish _
  case jp | jpV0 | seVxNN | sneVxNN | seVxVy | sneVxVy => exact keepsExcept_finish s _
  case ldVxNN x _ | addVxNN x _ | ldVxVy x _ | orVxVy x _ | andVxVy x _ | xorVxVy x _ | ldVxDT x =>
    exact (keepsExcept_setV s x _).finish _
  case addVxVy x _ | subVxVy x _ | shrVx x _ | subnVxVy x _ | shlVx x _ =>
    exact (keepsExcept_setResultFlag s x _ _).finish _
  case rndVxNN x _ => exact ((keepsExcept_nextDraw s).trans (keepsExcept_setV _ x _)).finish _
  case ldINNN | ldFVx => exact (keepsExcept_setIndex s _).finish _
  case addIVx => exact ((keepsExcept_setIndex s _).trans (keepsExcept_setV _ vf _)).finish _
  case ldDTVx => exact (keepsExcept_setDT s _).finish _
  case ldSTVx => exact (keepsExcept_setST s _).finish _

/-! ### The invariant -/

/-- An arm leaves memory alone or writes one block of bytes, those of FX33 and FX55. -/
theorem exec_next_mem {i : Instr} {s u : State} (h : exec i s = .next u) :
    u.mem = s.mem ∨ ∃ a bs, u.mem = Memory.writeBlock s.mem a bs := by
  cases i
  case ldBVx | ldMemVx =>
    simp only [exec_ldBVx, exec_ldMemVx, guarded_next] at h
    obtain ⟨-, hnext⟩ := h
    cases hnext
    exact .inr ⟨_, _, rfl⟩
  all_goals refine .inl ?_
  case ret | call | skp | sknp =>
    simp only [exec_ret, exec_call, exec_skp, exec_sknp] at h
    split at h <;> cases h
    rfl
  case ldVxK =>
    rw [exec_ldVxK] at h
    split at h <;> cases h <;> rfl
  case ldVxMem =>
    rw [exec_ldVxMem, guarded_next] at h
    obtain ⟨-, hnext⟩ := h
    cases hnext
    rfl
  case drw =>
    rw [exec_drw, guarded_next, guarded_next] at h
    obtain ⟨-, -, hnext⟩ := h
    cases hnext
    rfl
  -- the arms that always complete end in `finish` by definition (Laws/Step.lean)
  all_goals cases h; rfl

theorem exec_next_wf_mem {i : Instr} {s u : State} (h : exec i s = .next u) (hwf : Memory.wf s.mem = true) :
    Memory.wf u.mem = true := by
  obtain hkept | ⟨a, bs, hwritten⟩ := exec_next_mem h
  · rwa [hkept]
  · rw [hwritten]
    exact Memory.wf_writeBlock hwf a

/-- The one value that an arm puts on the stack is the `pc` of a call (R114). -/
theorem exec_next_stack {i : Instr} {s u : State} (h : exec i s = .next u) (j : Fin 16) :
    u.stack[j] = s.stack[j] ∨ u.stack[j] = s.pc := by
  by_cases hcall : ∃ nnn, i = .call nnn
  · obtain ⟨nnn, rfl⟩ := hcall
    rw [exec_call] at h
    split at h <;> cases h
    rw [State.finish_stack, getElem_stack_pushed]
    exact (ite_eq_or_eq ..).symm
  · have hkeeps : .stack ∉ partsWritten i := by cases i <;> simp_all [partsWritten]
    have hkept : u.stack = s.stack := (instructionFrame i s u h).parts .stack hkeeps
    exact .inl (congrArg (·[j]) hkept)

/-- No target passes 0x10FE when `pc` was fetched from and the stack holds addresses of instructions (R28). -/
theorem PcTarget.toNat_le {i : Instr} {s : State} {p : Word} (h : PcTarget i s p) (hpc : s.pc.toNat ≤ 0xFFE)
    (hstack : ∀ j : Fin 16, s.stack[j].toNat ≤ 0xFFE) : p.toNat ≤ 0x10FE := by
  cases i
  case jp nnn | call nnn =>
    have hnnn := nnn.isLt
    rw [show p = addrOperand nnn from h, toNat_addrOperand]
    omega
  case jpV0 nnn =>
    have hnnn := nnn.isLt
    have hv := (s.getV 0).isLt
    rw [show p = computedTarget nnn s from h, toNat_computedTarget]
    omega
  case ret =>
    have htop : (topOfStack s).toNat ≤ 0xFFE := hstack ⟨s.sp.val - 1, by omega⟩
    rw [show p = topOfStack s + 2 from h]
    bv_omega
  case seVxNN | sneVxNN | seVxVy | sneVxVy | skp | sknp =>
    obtain rfl | rfl : p = s.pc + 2 ∨ p = s.pc + 4 := h
    · bv_omega
    · bv_omega
  all_goals
    rw [show p = s.pc + 2 from h]
    bv_omega

theorem exec_next_pc_le {i : Instr} {s u : State} (h : exec i s = .next u) (hpc : s.pc.toNat ≤ 0xFFE)
    (hstack : ∀ j : Fin 16, s.stack[j].toNat ≤ 0xFFE) : u.pc.toNat ≤ 0x10FE := by
  obtain ⟨-, htarget⟩ | ⟨-, hwaits, -⟩ := exec_next_pc h
  · exact htarget.toNat_le hpc hstack
  · rw [hwaits]
    omega

/-- An arm keeps the invariant: it runs only when `pc` was fetched from, so a call pushes at most 0xFFE. -/
theorem exec_next_inv {i : Instr} {s u : State} (h : exec i s = .next u) (hinv : s.Inv) (hpc : s.pc.toNat ≤ 0xFFE) :
    u.Inv where
  mem := exec_next_wf_mem h hinv.mem
  pc := exec_next_pc_le h hpc hinv.stack
  stack j := by
    obtain hkept | hpushed := exec_next_stack h j
    · exact hkept ▸ hinv.stack j
    · exact hpushed ▸ hpc

/-- The invariant speaks of memory, `pc` and the stack only. -/
theorem State.Inv.congr {s t : State} (h : s.Inv) (hmem : t.mem = s.mem) (hpc : t.pc = s.pc)
    (hstack : t.stack = s.stack) : t.Inv where
  mem := hmem ▸ h.mem
  pc := hpc ▸ h.pc
  stack := hstack ▸ h.stack

/-- Settles O21: the arm keeps the invariant, and the timer phase touches none of what it speaks of. -/
theorem stepKeepsInvariant : Obligations.StepKeepsInvariant := by
  intro s t hinv hstep
  obtain ⟨w, u, hfetch, rfl, ⟨-, rfl⟩ | ⟨i, -, hexec⟩⟩ := step_next hstep
  · exact hinv.congr rfl rfl rfl
  · exact (exec_next_inv hexec hinv (fetch_eq_ok.1 hfetch).1).congr rfl rfl rfl

/-! ### The host's transactions -/

/-- Settles O22: the fields of the reset state. -/
theorem resetMeetsInvariant : Obligations.ResetMeetsInvariant := ⟨rfl, by decide, by decide⟩

/-- A successful load replaces the reset state's memory by a canonical one. -/
theorem loadedState_inv (font : Font) {rom : List Byte} (h : rom.length ≤ 3584) : (loadedState font rom).Inv where
  mem := Memory.wf_loadedMemory font h
  pc := resetMeetsInvariant.pc
  stack := resetMeetsInvariant.stack

theorem transact_inv (font : Font) (t : Transaction) {s : State} (hinv : s.Inv) : (transact font t s).1.Inv := by
  cases t with
  | load rom =>
    by_cases hlen : rom.length ≤ 3584
    · rw [transact_load_ok font s hlen]
      exact (loadedState_inv font hlen).congr rfl rfl rfl
    · rwa [transact_load_too_large font s (Nat.lt_of_not_le hlen)]
  | step =>
    cases hstep : step s with
    | next t =>
      rw [transact_step_next font hstep]
      exact stepKeepsInvariant s t hinv hstep
    | fault f =>
      rw [transact_step_fault font hstep]
      exact hinv.congr rfl rfl rfl
    | refused r => exact absurd hstep (step_ne_refused s r)
  | setKey | consumeDraw => exact hinv.congr rfl rfl rfl
  | read => exact hinv

/-- Settles O23: by induction on the list, every transaction keeping the invariant. -/
theorem transactionKeepsInvariant : Obligations.TransactionKeepsInvariant := by
  intro font ts s hinv
  induction ts generalizing s with
  | nil => exact hinv
  | cons t ts ih => exact ih _ (transact_inv font t hinv)

end Sys2Proof.Machine
end

section
/-! R59, R182, R220 to R229: when an arm runs, and the faults of memory and of the grid. -/

namespace Sys2Proof.Machine

/-! ### Running or faulting -/

/-- The check of a block that is not empty passes when its last byte exists. -/
theorem checkRange_succ_none {a n : Nat} : checkRange a (n + 1) = none ↔ a + n ≤ 0xFFF := by
  rw [checkRange_none]
  omega

/-- An instruction can run exactly when its arm has no fault to raise (R222 to R225). -/
theorem canRun_iff (i : Instr) (s : State) : CanRun i s ↔ ∀ f, ¬ ArmFault i s f := by
  cases i
  case ret | call => simp [CanRun, ArmFault]
  case skp | sknp => simp [CanRun, ArmFault, Nat.lt_succ_iff]
  case ldBVx | ldMemVx | ldVxMem =>
    simp only [CanRun, ArmFault, ← Option.eq_none_iff_forall_ne_some, checkRange_succ_none, indexAddr, Nat.add_zero]
  case drw x y n =>
    have hchecks : CanRun (.drw x y n) s ↔
        checkRange (indexAddr s 0) n = none ∧ checkPixels (drwPixels x y n s) = none :=
      and_congr checkRange_none.symm (onGrid_drwPixels.symm.trans checkPixels_none.symm)
    rw [hchecks]
    simp only [ArmFault]
    cases checkRange (indexAddr s 0) n <;> cases checkPixels (drwPixels x y n s) <;> simp
  -- the other arms have no check
  all_goals simp [CanRun, ArmFault]

/-- Settles O14: an arm refuses nothing, so it answers a next state exactly when it raises no fault. -/
theorem instructionRunsExactlyWhen : Obligations.InstructionRunsExactlyWhen := by
  intro i s
  rw [canRun_iff]
  refine ⟨fun hnone => ?_, fun hsome => ?_⟩
  · cases h : exec i s with
    | next t => exact ⟨t, rfl⟩
    | fault f => exact absurd (exec_fault.1 h) (hnone f)
    | refused r => exact absurd h (exec_ne_refused i s r)
  · obtain ⟨f, hf⟩ := not_forall_not.1 hsome
    exact ⟨f, exec_fault.2 hf⟩

/-! ### Memory faults -/

/-- The range check of a transfer reports the lowest of its addresses past 0xFFF (R59). -/
theorem checkRange_eq_memoryFault {s : State} {n a : Nat} :
    checkRange (indexAddr s 0) n = some (.memoryFault a) ↔
      (∃ k, k < n ∧ a = s.index.toNat + k) ∧ 0xFFF < a ∧ ∀ k, s.index.toNat + k < a → s.index.toNat + k ≤ 0xFFF := by
  simp only [checkRange_some, indexAddr, Nat.add_zero, Fault.memoryFault.injEq]
  constructor
  · rintro ⟨hn, hpast, rfl⟩
    exact ⟨⟨max s.index.toNat 4096 - s.index.toNat, by omega, by omega⟩, by omega, fun k hk => by omega⟩
  · rintro ⟨⟨k, hk, rfl⟩, hpast, hlower⟩
    -- were `k` not the first address or 0x1000, the one before it would be past 0xFFF too
    have hbefore := hlower (k - 1)
    exact ⟨by omega, by omega, by omega⟩

/-- The only memory fault of an arm is that of its range check. -/
theorem armFault_memoryFault {i : Instr} {s : State} {a : Nat} :
    ArmFault i s (.memoryFault a) ↔ checkRange (indexAddr s 0) (accessLength i) = some (.memoryFault a) := by
  cases i
  case ldBVx | ldMemVx | ldVxMem => exact Iff.rfl
  case drw => simp [ArmFault, accessLength, checkPixels_some]
  -- the other arms access nothing through `I`
  all_goals simp [ArmFault, accessLength, checkRange]

/-- Settles O17: the arm's range check, and the fetch's. -/
theorem memoryFaultReportsLowestAddress : Obligations.MemoryFaultReportsLowestAddress := by
  refine ⟨fun i s a => ?_, fun s => ⟨fun hpc => ?_, fun hpc => ?_⟩⟩
  · rw [exec_fault, armFault_memoryFault, checkRange_eq_memoryFault]
  · rw [badTargetFaultsNext s (by omega), hpc]
    rfl
  · rw [badTargetFaultsNext s (by omega), Nat.max_eq_left (by omega)]

/-! ### Display faults -/

/-- Pixel `p` is read before `q` or is `q`: rows top to bottom, and in a row left to right (R182). -/
def RowMajor (p q : Nat × Nat) : Prop := p.2 < q.2 ∨ (p.2 = q.2 ∧ p.1 ≤ q.1)

theorem RowMajor.refl (p : Nat × Nat) : RowMajor p p := .inr ⟨rfl, le_refl _⟩

theorem RowMajor.antisymm {p q : Nat × Nat} (h : RowMajor p q) (h' : RowMajor q p) : p = q := by
  unfold RowMajor at h h'
  exact Prod.ext (by omega) (by omega)

theorem spritePixels_pairwise_rowMajor (m : Memory) (a x0 y0 n : Nat) :
    (spritePixels m a x0 y0 n).Pairwise RowMajor := by
  rw [spritePixels, List.pairwise_flatMap]
  constructor
  · intro r _
    rw [rowPixels, List.pairwise_map]
    refine (List.pairwise_lt_range.filter _).imp fun hlt => .inr ⟨rfl, ?_⟩
    exact Nat.add_le_add_left (Nat.le_of_lt hlt) x0
  · refine List.pairwise_lt_range.imp fun {r r'} hlt p hp q hq => ?_
    obtain ⟨c, -, -, rfl⟩ := mem_rowPixels.1 hp
    obtain ⟨c', -, -, rfl⟩ := mem_rowPixels.1 hq
    exact .inl (Nat.add_lt_add_left hlt y0)

theorem drwPixels_pairwise_rowMajor (x y : Reg) (n : Nat) (s : State) : (drwPixels x y n s).Pairwise RowMajor :=
  spritePixels_pairwise_rowMajor ..

/-- In a row-major list the first pixel that passes a test is the row-major least one that does. -/
theorem find?_eq_some_iff_rowMajor {ps : List (Nat × Nat)} (h : ps.Pairwise RowMajor) (test : Nat × Nat → Bool)
    (p : Nat × Nat) :
    ps.find? test = some p ↔ p ∈ ps ∧ test p = true ∧ ∀ q ∈ ps, test q = true → RowMajor p q := by
  induction ps with
  | nil => simp
  | cons q ps ih =>
    obtain ⟨hq, hps⟩ := List.pairwise_cons.1 h
    by_cases htest : test q = true
    · rw [List.find?_cons_of_pos htest, Option.some.injEq]
      constructor
      · rintro rfl
        refine ⟨List.mem_cons_self .., htest, fun q' hq' _ => ?_⟩
        obtain rfl | hmem := List.mem_cons.1 hq'
        · exact RowMajor.refl _
        · exact hq q' hmem
      · rintro ⟨hmem, -, hleast⟩
        obtain rfl | hmem := List.mem_cons.1 hmem
        · rfl
        · exact (hq p hmem).antisymm (hleast q (List.mem_cons_self ..) htest)
    · rw [List.find?_cons_of_neg htest, ih hps]
      have hne {p' : Nat × Nat} (hp' : test p' = true) : p' ≠ q := fun heq => htest (heq ▸ hp')
      constructor
      · rintro ⟨hmem, hp, hleast⟩
        refine ⟨List.mem_cons_of_mem q hmem, hp, fun q' hq' hp' => hleast q' ?_ hp'⟩
        exact List.mem_of_ne_of_mem (hne hp') hq'
      · rintro ⟨hmem, hp, hleast⟩
        exact ⟨List.mem_of_ne_of_mem (hne hp) hmem, hp, fun q' hq' => hleast q' (List.mem_cons_of_mem q hq')⟩

theorem offGrid_eq_true {p : Nat × Nat} : offGrid p = true ↔ 63 < p.1 ∨ 31 < p.2 := by
  simp [offGrid]

/-- The grid check reports the row-major first set pixel off the grid (R182). -/
theorem checkPixels_drwPixels_eq_displayFault {s : State} {x y : Reg} {n column row : Nat} :
    checkPixels (drwPixels x y n s) = some (.displayFault column row) ↔
      SetPixel s x y n column row ∧ (63 < column ∨ 31 < row) ∧
        ∀ column' row', SetPixel s x y n column' row' → (63 < column' ∨ 31 < row') →
          row < row' ∨ (row = row' ∧ column ≤ column') := by
  have hfirst : checkPixels (drwPixels x y n s) = some (.displayFault column row) ↔
      (drwPixels x y n s).find? offGrid = some (column, row) := by
    rw [checkPixels_some]
    constructor
    · rintro ⟨p, hp, hf⟩
      cases hf
      exact hp
    · exact fun h => ⟨_, h, rfl⟩
  rw [hfirst, find?_eq_some_iff_rowMajor (drwPixels_pairwise_rowMajor x y n s)]
  simp only [Prod.forall, mem_drwPixels, offGrid_eq_true, RowMajor]

/-- Settles O18: only DXYN's grid check raises a display fault, and it runs once the range check has passed. -/
theorem displayFaultReportsFirstPixel : Obligations.DisplayFaultReportsFirstPixel := by
  intro i s column row
  rw [exec_fault]
  cases i
  case drw x y n =>
    simp only [ArmFault, checkRange_some, reduceCtorEq, and_false, false_or, checkRange_none,
      checkPixels_drwPixels_eq_displayFault, indexAddr, Nat.add_zero, Instr.drw.injEq]
    constructor
    · rintro ⟨hrange, hpixel⟩
      exact ⟨x, y, n, ⟨rfl, rfl, rfl⟩, hrange, hpixel⟩
    · rintro ⟨_, _, _, ⟨rfl, rfl, rfl⟩, hrange, hpixel⟩
      exact ⟨hrange, hpixel⟩
  case ldBVx | ldMemVx | ldVxMem => simp [ArmFault, checkRange_some]
  -- the other arms raise a stack fault, a key fault or none
  all_goals simp [ArmFault]

end Sys2Proof.Machine
end

section
/-! R33, R38, R90 to R100, R226, R236 to R240: what a step reads, what it does besides its arm, and the timers. -/

namespace Sys2Proof.Machine

/-! ### Inputs and outputs -/

theorem onNext_guarded (f : State → State) (c : Option Fault) (k : StepResult) :
    onNext f (guarded c k) = guarded c (onNext f k) := by
  cases c <;> rfl

theorem exec_ldVxK_some {s : State} {k : Nat} (h : firstKey s = some k) (x : Reg) :
    exec (.ldVxK x) s = .next ((s.setV x (BitVec.ofNat 8 k)).finish (s.pc + 2)) := by
  rw [exec_ldVxK, h]

theorem exec_ldVxK_none {s : State} (h : firstKey s = none) (x : Reg) :
    exec (.ldVxK x) s = .next (s.report .waiting) := by
  rw [exec_ldVxK, h]

/-- The draw counter goes through every arm but that of CXNN (R100). -/
theorem exec_withDraws {i : Instr} (hi : ∀ x nn, i ≠ .rndVxNN x nn) (s : State) (n : Nat) :
    exec i { s with draws := n } = onNext (fun t => { t with draws := n }) (exec i s) := by
  cases i
  case rndVxNN x nn => exact absurd rfl (hi x nn)
  case ret | call | skp | sknp =>
    simp only [exec_ret, exec_call, exec_skp, exec_sknp, apply_ite (onNext _), apply_dite (onNext _)]
    rfl
  case ldVxK x =>
    cases hkey : firstKey s with
    | none =>
      rw [exec_ldVxK_none hkey]
      exact exec_ldVxK_none (s := { s with draws := n }) hkey x
    | some k =>
      rw [exec_ldVxK_some hkey]
      exact exec_ldVxK_some (s := { s with draws := n }) hkey x
  case ldBVx | ldMemVx | ldVxMem | drw =>
    simp only [exec_ldBVx, exec_ldMemVx, exec_ldVxMem, exec_drw, onNext_guarded]
    rfl
  -- the other arms always complete, and not one of their updates reads the counter
  all_goals rfl

/-- The keys go through every arm but those of EX9E, EXA1 and FX0A (R274). -/
theorem exec_withKeys {i : Instr} (hi : ∀ x, i ≠ .skp x ∧ i ≠ .sknp x ∧ i ≠ .ldVxK x) (s : State)
    (k : Vector Byte 16) : exec i { s with keys := k } = onNext (fun t => { t with keys := k }) (exec i s) := by
  cases i
  case skp | sknp | ldVxK => simp at hi
  case ret | call =>
    simp only [exec_ret, exec_call, apply_ite (onNext _), apply_dite (onNext _)]
    rfl
  case ldBVx | ldMemVx | ldVxMem | drw =>
    simp only [exec_ldBVx, exec_ldMemVx, exec_ldVxMem, exec_drw, onNext_guarded]
    rfl
  -- the other arms always complete, and not one of their updates reads the keys
  all_goals rfl

/-- Settles O12: `exec_withDraws` and `exec_withKeys`. -/
theorem inputsReadOnlyByTheirInstructions : Obligations.InputsReadOnlyByTheirInstructions :=
  fun _ s => ⟨fun hi => exec_withDraws hi s, fun hi => exec_withKeys hi s⟩

/-- Every arm sets the outcome, and the trigger goes through it (R38). -/
theorem exec_withOutputs (i : Instr) (s : State) (r : Report) (b : Bool) :
    exec i { s with outcome := r, sound := b } = onNext (fun t => { t with sound := b }) (exec i s) := by
  cases i
  case ret | call | skp | sknp =>
    simp only [exec_ret, exec_call, exec_skp, exec_sknp, apply_ite (onNext _), apply_dite (onNext _)]
    rfl
  case ldVxK x =>
    cases hkey : firstKey s with
    | none =>
      rw [exec_ldVxK_none hkey]
      exact exec_ldVxK_none (s := { s with outcome := r, sound := b }) hkey x
    | some k =>
      rw [exec_ldVxK_some hkey]
      exact exec_ldVxK_some (s := { s with outcome := r, sound := b }) hkey x
  case ldBVx | ldMemVx | ldVxMem | drw =>
    simp only [exec_ldBVx, exec_ldMemVx, exec_ldVxMem, exec_drw, onNext_guarded]
    rfl
  -- the other arms always complete, and not one of their updates reads an output
  all_goals rfl

/-- The timer phase sets the trigger anew (R236). -/
theorem afterArm_onNext_sound (a : StepResult) (b : Bool) :
    afterArm (onNext (fun t => { t with sound := b }) a) = afterArm a := by
  cases a <;> rfl

/-- Settles O11: the arm overwrites the outcome and the timer phase the trigger; the fetch reads neither. -/
theorem stepIgnoresOutputs : Obligations.StepIgnoresOutputs := by
  intro s r b
  have hfetch : fetch { s with outcome := r, sound := b } = fetch s := rfl
  cases hf : fetch s with
  | error f => rw [step_fetch_fault hf, step_fetch_fault (hfetch.trans hf)]
  | ok w =>
    cases hd : decode w with
    | unknown u => 
      rw [step_unknown hf hd, step_unknown (hfetch.trans hf) hd]
      rfl
    | instr i =>
      rw [step_instr hf hd, step_instr (hfetch.trans hf) hd, exec_withOutputs, afterArm_onNext_sound]

/-- Which fault an arm raises does not depend on the keys, the draw counter or the outputs. -/
theorem armFault_congr (i : Instr) (s : State) (f : Fault) (k : Vector Byte 16) (n : Nat) (r : Report) (b : Bool) :
    ArmFault i { s with keys := k, draws := n, outcome := r, sound := b } f ↔ ArmFault i s f := by
  cases i <;> exact Iff.rfl

/-- Settles O19: neither the fetch nor an arm's check reads what may change between the two steps. -/
theorem faultedStepChangesNothingAndRepeats : Obligations.FaultedStepChangesNothingAndRepeats := by
  refine fun s f h => ⟨fun font => transact_step_fault font h, fun k n r b => ?_⟩
  have hfetch : fetch { s with keys := k, draws := n, outcome := r, sound := b } = fetch s := rfl
  obtain hf | ⟨w, i, hf, hd, hexec⟩ := step_fault h
  · exact step_fetch_fault (hfetch.trans hf)
  · rw [step_instr (hfetch.trans hf) hd, afterArm_eq_fault, exec_fault, armFault_congr]
    exact exec_fault.1 hexec

/-! ### The timer phase -/

/-- Settles O6: the step is the arm and then the timer phase, whose fields are `countDown` and the trigger. -/
theorem stepRunsDecodedInstruction : Obligations.StepRunsDecodedInstruction := by
  intro s i hpc hdecode
  have hstep : step s = afterArm (exec i s) := step_of_runsAt ⟨_, fetch_ok hpc, hdecode⟩
  refine ⟨fun u hexec => ⟨timerPhase u, ?_, rfl, rfl, decide_eq_true_iff, rfl, rfl, keepsExcept_timerPhase u⟩,
    fun f hexec => ?_⟩
  · rw [hstep, hexec, afterArm_next]
  · rw [hstep, hexec, afterArm_fault]

/-- Settles O9: a step that does not fault is an arm, or the report of an unknown word, and then the timer phase. -/
theorem timerPhaseOncePerStep : Obligations.TimerPhaseOncePerStep := by
  refine fun s => ⟨fun t hstep => ?_, fun f hstep font => transact_step_fault font hstep⟩
  obtain ⟨w, u, hfetch, rfl, harm⟩ := step_next hstep
  refine ⟨u, ?_, countDown_of_ne, fun hdt => ?_, countDown_of_ne, fun hst => ?_, decide_eq_true_iff⟩
  · exact harm.imp (fun ⟨hd, hu⟩ => ⟨w, hfetch, hd, hu⟩) fun ⟨i, hd, hexec⟩ => ⟨i, ⟨w, hfetch, hd⟩, hexec⟩
  · rw [timerPhase_dt, hdt, countDown_zero]
  · rw [timerPhase_st, hst, countDown_zero]

/-- A part that the instruction at `pc` does not write reaches the timer phase as it was. -/
theorem step_next_same {p : Part} {s t : State} (h : step s = .next t) (hno : ∀ i, p ∈ partsWritten i → ¬ RunsAt s i) :
    ∃ u, t = timerPhase u ∧ p.same s u := by
  obtain ⟨w, u, hfetch, ht, ⟨-, rfl⟩ | ⟨i, hd, hexec⟩⟩ := step_next h
  · exact ⟨_, ht, (keepsExcept_report s _).parts p (List.not_mem_nil)⟩
  · exact ⟨u, ht, (instructionFrame i s u hexec).parts p fun hmem => hno i hmem ⟨w, hfetch, hd⟩⟩

/-- FX15 alone writes `DT` before the timer phase (R206). -/
theorem step_next_dt {s t : State} (h : step s = .next t) (hno : ∀ x, ¬ RunsAt s (.ldDTVx x)) :
    ∃ u, t = timerPhase u ∧ u.dt = s.dt := by
  refine step_next_same (p := .dt) h fun i hmem => ?_
  cases i <;> simp [partsWritten] at hmem
  exact hno _

/-- FX18 alone writes `ST` before the timer phase (R207). -/
theorem step_next_st {s t : State} (h : step s = .next t) (hno : ∀ x, ¬ RunsAt s (.ldSTVx x)) :
    ∃ u, t = timerPhase u ∧ u.st = s.st := by
  refine step_next_same (p := .st) h fun i hmem => ?_
  cases i <;> simp [partsWritten] at hmem
  exact hno _

/-- No instruction writes the keys (R33). -/
theorem step_next_keys {s t : State} (h : step s = .next t) : t.keys = s.keys := by
  have hnone : ∀ i, .keys ∈ partsWritten i → ¬ RunsAt s i := by
    intro i hmem
    cases i <;> simp [partsWritten] at hmem
  obtain ⟨u, rfl, hkeys⟩ := step_next_same (p := .keys) h hnone
  exact hkeys

/-- The trigger is true only when `ST` has just reached 0 (R240). -/
theorem timerPhase_st_of_sound {u : State} (h : (timerPhase u).sound = true) : (timerPhase u).st = 0 := by
  have hst : u.st = 1 := of_decide_eq_true h
  rw [timerPhase_st, hst]
  rfl

/-- Settles O10: the trigger is the timer phase's, on the `ST` that the arm left. -/
theorem soundFiresOnlyOnOneToZero : Obligations.SoundFiresOnlyOnOneToZero := by
  refine fun s => ⟨fun t hstep => ⟨fun hno => ?_, fun x hruns => ?_, ?_, fun font => transact_step_next font hstep⟩,
    fun f hstep font => ?_⟩
  · obtain ⟨u, rfl, hst⟩ := step_next_st hstep hno
    rw [timerPhase_sound, decide_eq_true_iff, hst]
  · obtain ⟨u, hexec, rfl⟩ := exec_of_runsAt hruns hstep
    cases hexec
    exact decide_eq_true_iff
  · obtain ⟨w, u, -, rfl, -⟩ := step_next hstep
    exact timerPhase_st_of_sound
  · rw [transact_step_fault font hstep]
    exact ⟨rfl, rfl, rfl⟩

/-- A run of `k + 1` steps is a step and a run of `k`. -/
theorem run_succ_next {k : Nat} {s t : State} (h : Sys2Proof.core.run (k + 1) s = .next t) :
    ∃ u, step s = .next u ∧ Sys2Proof.core.run k u = .next t := by
  cases hstep : step s with
  | next u => exact ⟨u, rfl, (run_next hstep).symm.trans h⟩
  | fault f =>
    rw [run_fault hstep] at h
    cases h
  | refused r => exact absurd hstep (step_ne_refused s r)

/-- A timer that every step but those that meet `Writes` counts down has, after `k` steps none of which does, fallen by
`k`. -/
theorem run_countsDown {timer : State → Byte} {Writes : State → Prop}
    (hstep : ∀ s t, step s = .next t → ¬ Writes s → (timer t).toNat = (timer s).toNat - 1) (k : Nat) {s t : State}
    (hrun : Sys2Proof.core.run k s = .next t) (hno : ∀ j u, j < k → Sys2Proof.core.run j s = .next u → ¬ Writes u) :
    (timer t).toNat = (timer s).toNat - k := by
  induction k generalizing s with
  | zero =>
    cases hrun
    rfl
  | succ k ih =>
    obtain ⟨u, hsu, hrunu⟩ := run_succ_next hrun
    have hfirst := hstep s u hsu (hno 0 s (by omega) rfl)
    have hrest := ih hrunu fun j v hj hv => hno (j + 1) v (by omega) ((run_next hsu).trans hv)
    omega

/-- Settles O54: each timer falls by one in a step that does not write it. -/
theorem timersCountSteps : Obligations.TimersCountSteps := by
  refine fun k s t hrun => ⟨fun hno => ?_, fun hno => ?_⟩
  · refine run_countsDown (Writes := fun s => ∃ x, RunsAt s (.ldDTVx x)) (fun s t h hs => ?_) k hrun
      fun j u hj hu => not_exists.2 (hno j u hj hu)
    obtain ⟨u, rfl, hdt⟩ := step_next_dt h (not_exists.1 hs)
    rw [timerPhase_dt, toNat_countDown, hdt]
  · refine run_countsDown (Writes := fun s => ∃ x, RunsAt s (.ldSTVx x)) (fun s t h hs => ?_) k hrun
      fun j u hj hu => not_exists.2 (hno j u hj hu)
    obtain ⟨u, rfl, hst⟩ := step_next_st h (not_exists.1 hs)
    rw [timerPhase_st, toNat_countDown, hst]

/-! ### Unknown words -/

/-- The step at an unknown word: the report, and then the timer phase (R98, R221). -/
theorem keepsExcept_timerPhase_report (s : State) (r : Report) :
    KeepsExcept [] [.dt, .st, .sound] s (timerPhase (s.report r)) :=
  (keepsExcept_report s r).trans (keepsExcept_timerPhase _)

/-- Settles O8: a word that selects no row decodes to Unknown. -/
theorem unknownWordOnlyTicksTimers : Obligations.UnknownWordOnlyTicksTimers := by
  rintro s w hpc rfl hnone
  exact ⟨_, step_unknown (fetch_ok hpc) (decode_of_selects_none hnone), rfl, rfl, rfl, rfl, decide_eq_true_iff,
    keepsExcept_timerPhase_report s _⟩

/-- The step at two zero bytes (R263). -/
theorem step_zeroWord {s : State} (hpc : s.pc.toNat ≤ 0xFFE) (hhi : Memory.read s.mem s.pc.toNat = 0)
    (hlo : Memory.read s.mem (s.pc.toNat + 1) = 0) : step s = .next (timerPhase (s.report (.unknown 0))) := by
  have hfetch : fetch s = .ok 0 := by
    rw [fetch_ok hpc, hhi, hlo]
    rfl
  exact step_unknown hfetch (by decide)

/-- Settles O60: the step keeps `pc` and memory, so by induction each of the next ones does the same. -/
theorem zeroWordIsReportedForEver : Obligations.ZeroWordIsReportedForEver := by
  refine fun s hpc hhi hlo => ⟨⟨_, step_zeroWord hpc hhi hlo, rfl, rfl, rfl, rfl, rfl, decide_eq_true_iff,
    keepsExcept_timerPhase_report s _⟩, fun k => ?_⟩
  induction k generalizing s with
  | zero => exact ⟨_, run_next (step_zeroWord hpc hhi hlo), rfl, rfl, rfl, toNat_countDown _, toNat_countDown _,
      keepsExcept_timerPhase_report s _⟩
  | succ k ih =>
    obtain ⟨t, hrun, hout, hpct, hmem, hdt, hst, hframe⟩ := ih (timerPhase (s.report (.unknown 0))) hpc hhi hlo
    refine ⟨t, (run_next (step_zeroWord hpc hhi hlo)).trans hrun, hout, hpct, hmem, ?_, ?_,
      ((keepsExcept_timerPhase_report s _).trans hframe).mono (by simp) (by simp)⟩
    · rw [hdt, timerPhase_dt, toNat_countDown, State.report_dt]
      omega
    · rw [hst, timerPhase_st, toNat_countDown, State.report_st]
      omega

/-! ### Keys -/

theorem transact_step_keys (font : Font) (s : State) : (transact font .step s).1.keys = s.keys := by
  cases hstep : step s with
  | next t =>
    rw [transact_step_next font hstep]
    exact step_next_keys hstep
  | fault f =>
    rw [transact_step_fault font hstep]
    rfl
  | refused r => exact absurd hstep (step_ne_refused s r)

theorem keepsExcept_setKey (k : Fin 16) (b : Byte) (s : State) : KeepsExcept [] [.keys] s (setKey k b s) where
  regs _ _ := rfl
  parts p hp := by cases p <;> simp_all [Part.same]

theorem getElem_keys_setKey (k j : Fin 16) (b : Byte) (s : State) :
    (setKey k b s).keys[j] = if j = k then b else s.keys[j] := by
  simp only [setKey_keys, Fin.getElem_fin, Vector.getElem_set, Fin.ext_iff, eq_comm]

/-- Settles O59: `setKey` is one write of the matrix, and a step none. -/
theorem hostSetsOneKey : Obligations.HostSetsOneKey := fun font =>
  ⟨fun k b s => ⟨_, rfl, fun j => getElem_keys_setKey k j b s, rfl, rfl, keepsExcept_setKey k b s⟩, fun _ => rfl,
    transact_step_keys font⟩

end Sys2Proof.Machine
end

section
/-! R112, R117 to R120, R128 to R145: returns, skips and jumps on registers, and the rest of the arithmetic. -/

namespace Sys2Proof.Machine

/-! ### Control flow -/

theorem exec_ret_ok {s : State} (h : s.sp.val ≠ 0) : exec .ret s = .next (s.popped.finish (topOfStack s + 2)) := by
  rw [exec_ret, if_neg h]

/-- Settles O26: the arm's two answers. -/
theorem returnPopsAndAddsTwo : Obligations.ReturnPopsAndAddsTwo :=
  ⟨encodes_ret, fun s => ⟨fun h => ⟨_, exec_ret_ok h, rfl, rfl, rfl, badTargetFaultsNext _,
    (keepsExcept_popped s).finish _⟩, fun h => exec_fault.2 ⟨h, rfl⟩⟩⟩

/-- Settles O28: both rows are skips, on the comparison and on its negation. -/
theorem skipOnRegister : Obligations.SkipOnRegister := by
  refine ⟨encodes_seVxVy, encodes_sneVxVy, fun x y s => ⟨?_, ?_⟩⟩
  · exact exec_skip_of_eq _ (exec_seVxVy x y s)
  · simpa only [not_not] using exec_skip_of_eq _ (exec_sneVxVy x y s)

/-- Settles O29: the arm is `finish` at the computed target. -/
theorem computedJumpAddsV0 : Obligations.ComputedJumpAddsV0 :=
  ⟨encodes_jpV0, fun nnn s => ⟨_, exec_jpV0 nnn s, toNat_computedTarget nnn s, rfl, badTargetFaultsNext _,
    keepsExcept_finish s _⟩⟩

/-- A part that reads as before need not be listed. -/
theorem KeepsExcept.drop {r : List Reg} {q : Part} {p : List Part} {s t : State} (h : KeepsExcept r (q :: p) s t)
    (hq : q.same s t) : KeepsExcept r p s t where
  regs := h.regs
  parts q' hq' := by
    by_cases heq : q' = q
    · exact heq ▸ hq
    · exact h.parts q' (List.not_mem_cons_of_ne_of_not_mem heq hq')

/-- A pop takes back what the push before it put on the stack (R110, R111). -/
theorem topOfStack_pushed (s : State) (w : Word) (h : s.sp.val < 16) : topOfStack (s.pushed w h) = w :=
  (getElem_stack_pushed s w h ⟨s.sp.val, h⟩).trans (if_pos rfl)

theorem step_call {s : State} {nnn : Addr12} (h : s.sp.val < 16) (hruns : RunsAt s (.call nnn)) :
    step s = .next (timerPhase ((s.pushed s.pc h).finish (addrOperand nnn))) := by
  rw [step_of_runsAt hruns, exec_call_ok nnn h, afterArm_next]

theorem step_ret {s : State} (h : s.sp.val ≠ 0) (hruns : RunsAt s .ret) :
    step s = .next (timerPhase (s.popped.finish (topOfStack s + 2))) := by
  rw [step_of_runsAt hruns, exec_ret_ok h, afterArm_next]

/-- Settles O30: the return pops what the call pushed; the frames of both arms and both timer phases compose. -/
theorem callThenReturnComesBack : Obligations.CallThenReturnComesBack := by
  intro s nnn hroom hcall hnnn hret
  have hpc : (addrOperand nnn).toNat = nnn.toNat := toNat_addrOperand nnn
  have hruns : RunsAt (timerPhase ((s.pushed s.pc hroom).finish (addrOperand nnn))) .ret := by
    have hlt := nnn.isLt
    have hlast : (addrOperand nnn).toNat ≤ 0xFFE := by omega
    refine ⟨_, fetch_ok hlast, ?_⟩
    rwa [← hpc] at hret
  have hframe := ((((keepsExcept_pushed s s.pc hroom).finish (addrOperand nnn)).trans (keepsExcept_timerPhase _)).trans
    ((keepsExcept_popped _).finish (topOfStack (s.pushed s.pc hroom) + 2))).trans (keepsExcept_timerPhase _)
  refine ⟨_, _, step_call hroom hcall, step_ret (Nat.succ_ne_zero s.sp.val) hruns, hpc, ?_, rfl,
    getElem_stack_pushed s s.pc hroom, KeepsExcept.drop (q := .sp) (hframe.mono (by simp) (by simp)) rfl⟩
  exact congrArg (· + 2) (topOfStack_pushed s s.pc hroom)

/-! ### Arithmetic and logic -/

/-- Settles O32: each arm is one register write, of the sum or of the bitwise operation. -/
theorem addImmediateAndLogicWriteNoFlag : Obligations.AddImmediateAndLogicWriteNoFlag := by
  refine ⟨encodes_addVxNN, encodes_orVxVy, encodes_andVxVy, encodes_xorVxVy, fun x y nn s => ⟨?_, ?_, ?_, ?_⟩⟩
  · obtain ⟨t, hexec, hv, hrest⟩ := exec_setV_of_eq (exec_addVxNN x nn s)
    exact ⟨t, hexec, by rw [hv, BitVec.toNat_add], hrest⟩
  · obtain ⟨t, hexec, hv, hrest⟩ := exec_setV_of_eq (exec_orVxVy x y s)
    exact ⟨t, hexec, fun k => by rw [hv, BitVec.getLsbD_or], hrest⟩
  · obtain ⟨t, hexec, hv, hrest⟩ := exec_setV_of_eq (exec_andVxVy x y s)
    exact ⟨t, hexec, fun k => by rw [hv, BitVec.getLsbD_and], hrest⟩
  · obtain ⟨t, hexec, hv, hrest⟩ := exec_setV_of_eq (exec_xorVxVy x y s)
    exact ⟨t, hexec, fun k => by rw [hv, BitVec.getLsbD_xor], hrest⟩

theorem toNat_byte_sub (a b : Byte) : (a - b).toNat = (a.toNat + 256 - b.toNat) % 256 := by
  have hb := b.isLt
  rw [BitVec.toNat_sub]
  congr 1
  omega

theorem noBorrowFlag_eq_ite (a b : Byte) : noBorrowFlag a b = if b.toNat ≤ a.toNat then 1 else 0 := by
  simp [noBorrowFlag, flag]

/-- Settles O34: both arms end in `setResultFlag` of a difference and its no-borrow flag. -/
theorem subtractSetsNoBorrow : Obligations.SubtractSetsNoBorrow := by
  refine ⟨encodes_subVxVy, encodes_subnVxVy, fun x y s => ⟨?_, ?_⟩⟩
  · obtain ⟨t, hexec, hdiff, hflag, hrest⟩ := exec_setResultFlag_of_eq (exec_subVxVy x y s)
    exact ⟨t, hexec, fun hx => by rw [hdiff hx, toNat_byte_sub], hflag.trans (noBorrowFlag_eq_ite _ _), hrest⟩
  · obtain ⟨t, hexec, hdiff, hflag, hrest⟩ := exec_setResultFlag_of_eq (exec_subnVxVy x y s)
    exact ⟨t, hexec, fun hx => by rw [hdiff hx, toNat_byte_sub], hflag.trans (noBorrowFlag_eq_ite _ _), hrest⟩

/-- The flag of a bit, as a number, is the bit. -/
theorem toNat_flag_getLsbD (b : Byte) (k : Nat) : (flag (b.getLsbD k)).toNat = b.toNat / 2 ^ k % 2 := by
  rw [BitVec.getLsbD, Nat.testBit_eq_decide_div_mod_eq]
  obtain h | h := Nat.mod_two_eq_zero_or_one (b.toNat / 2 ^ k) <;> simp [h, flag]

/-- Settles O35: both arms end in `setResultFlag` of the shifted byte and of the bit shifted out. -/
theorem shiftSetsBitShiftedOut : Obligations.ShiftSetsBitShiftedOut := by
  refine ⟨encodes_shrVx, encodes_shlVx, fun x y s => ⟨?_, ?_⟩⟩
  · obtain ⟨t, hexec, hres, hflag, hrest⟩ := exec_setResultFlag_of_eq (exec_shrVx x y s)
    refine ⟨t, hexec, fun hx => ?_, ?_, hrest⟩
    · rw [hres hx, BitVec.toNat_ushiftRight, Nat.shiftRight_eq_div_pow, Nat.pow_one]
    · rw [hflag, shiftedOutRight, toNat_flag_getLsbD, Nat.pow_zero, Nat.div_one]
  · obtain ⟨t, hexec, hres, hflag, hrest⟩ := exec_setResultFlag_of_eq (exec_shlVx x y s)
    refine ⟨t, hexec, fun hx => ?_, ?_, hrest⟩
    · rw [hres hx, BitVec.toNat_shiftLeft, Nat.shiftLeft_eq, Nat.pow_one]
    · have hlt := (s.getV x).isLt
      rw [hflag, shiftedOutLeft, toNat_flag_getLsbD]
      omega

/-! ### CXNN -/

/-- CXNN on the byte `r`: one register write, of the masked byte (R145). -/
theorem rndWith_spec (r : Byte) (x : Reg) (nn : Byte) (s : State) : ∃ t, rndWith r x nn s = .next t ∧
    (∀ k, (t.getV x).getLsbD k = (r.getLsbD k && nn.getLsbD k)) ∧
    t.pc = s.pc + 2 ∧ t.outcome = .completed ∧ t.draws = s.draws + 1 ∧ KeepsExcept [x] [.draws] s t :=
  ⟨_, rfl, fun k => by simp, rfl, rfl, rfl, ((keepsExcept_nextDraw s).trans (keepsExcept_setV _ x _)).finish _⟩

/-- Settles O36: the arm is `rndWith` on the byte of its draw. -/
theorem randomByteIsMasked : Obligations.RandomByteIsMasked := by
  refine ⟨encodes_rndVxNN, rndWith_spec, fun x nn s => ⟨rfl, ?_⟩⟩
  obtain ⟨t, hexec, hbits, hrest⟩ := rndWith_spec s.randomByte x nn s
  exact ⟨t, hexec, fun k hk => by rw [hbits, hk, Bool.and_false], hrest⟩

end Sys2Proof.Machine
end

section
/-! R61, R64, R161 to R166: FX1E and FX29, and bytes that go to memory and come back. -/

namespace Sys2Proof.Machine

/-! ### The index register -/

theorem indexOverflowFlag_eq_ite (sum : Nat) : indexOverflowFlag sum = if sum > 0xFFF then 1 else 0 := by
  simp [indexOverflowFlag, flag]

/-- Five times a byte fits 16 bits, so the address needs no reduction (R162). -/
theorem toNat_glyphAddr (digit : Byte) : (glyphAddr digit).toNat = digit.toNat * 5 := by
  have hd := digit.isLt
  rw [glyphAddr, BitVec.toNat_ofNat, Config.fontAddr, Config.fontGlyphBytes]
  omega

/-- Settles O39: FX1E writes the reduced sum and then the flag of the unreduced one, FX29 the glyph's address. -/
theorem addIndexAndGlyphAddress : Obligations.AddIndexAndGlyphAddress :=
  ⟨encodes_addIVx, encodes_ldFVx, fun x s =>
    ⟨⟨_, exec_addIVx x s, BitVec.toNat_ofNat _ _, by simp [indexOverflowFlag_eq_ite, indexSum], rfl, rfl,
      ((keepsExcept_setIndex s _).trans (keepsExcept_setV _ vf _)).finish _⟩,
    ⟨_, exec_ldFVx x s, toNat_glyphAddr _, rfl, rfl, (keepsExcept_setIndex s _).finish _⟩⟩⟩

/-! ### Bytes that come back -/

/-- Settles O44: the laws of Laws/Memory.lean. -/
theorem memoryReadAfterWrite : Obligations.MemoryReadAfterWrite :=
  ⟨fun m a b hm ha => ⟨Memory.read_write_same b hm ha, fun _ hc => Memory.read_write_other m b hc,
    Memory.wf_write hm a b⟩,
    fun _ _ hm hm' => Memory.eq_of_read_eq hm hm'⟩

/-- Settles O43: what the three instructions' own statements say, one after the other. -/
theorem storeThenLoadRestoresRegisters : Obligations.StoreThenLoadRestoresRegisters := by
  intro x nnn s hm hindex hrange
  obtain ⟨-, hstore⟩ := storeBlockStoresRegisters
  obtain ⟨-, hset⟩ := loadIndexSetsI
  obtain ⟨-, hload⟩ := loadBlockLoadsRegisters
  obtain ⟨t, hst, hstored, -, -, -, -, hframet⟩ := (hstore x s hm).1 hrange
  obtain ⟨u, htu, hindexu, -, -, hframeu⟩ := hset nnn t
  obtain ⟨v, huv, hloaded, hkept, hindexv, -⟩ := (hload x u).1 (by omega)
  have hmemu : ∀ a, Memory.read u.mem a = Memory.read t.mem a := hframeu.parts .mem (by simp)
  refine ⟨t, u, v, hst, htu, huv, fun k => ?_, by omega⟩
  obtain hk | hk := le_or_gt k x
  · rw [hloaded k hk, hindexu, ← hindex, hmemu]
    exact hstored k hk
  · rw [hkept k hk, hframeu.regs k (List.not_mem_nil), hframet.regs k (List.not_mem_nil)]

/-- An arm that answered a next state met its conditions (R222 to R225). -/
theorem canRun_of_exec_next {i : Instr} {s t : State} (h : exec i s = .next t) : CanRun i s := by
  by_contra hcannot
  obtain ⟨f, hf⟩ := (instructionRunsExactlyWhen i s).2 hcannot
  rw [h] at hf
  cases hf

/-- The fetch from a state whose two bytes at `pc` are those of `m` reads `m`'s bytes, high byte first (R56). -/
theorem fetch_of_read_eq {u : State} {m : Memory} (hpc : u.pc.toNat ≤ 0xFFE)
    (hsame : ∀ j, j < 2 → Memory.read u.mem (u.pc.toNat + j) = Memory.read m (u.pc.toNat + j)) :
    ∃ hi lo, fetch u = .ok (joinBytes hi lo) ∧
      ∀ (a : Nat) (b : Byte), (a = u.pc.toNat ∧ b = hi ∨ a = u.pc.toNat + 1 ∧ b = lo) → b = Memory.read m a := by
  refine ⟨_, _, fetch_ok hpc, ?_⟩
  rintro a b (⟨rfl, rfl⟩ | ⟨rfl, rfl⟩)
  · exact hsame 0 (by omega)
  · exact hsame 1 (by omega)

/-- Settles O45: the fetch reads the bytes the store left, and what these are the statements of FX55 and FX33 say. -/
theorem storedBytesAreFetched : Obligations.StoredBytesAreFetched := by
  obtain ⟨-, hregs⟩ := storeBlockStoresRegisters
  obtain ⟨-, hdigits⟩ := bcdStoresDigits
  refine ⟨fun x s t u hm hexec hpc hsame => ?_, fun x s t u hm hexec hpc hsame => ?_⟩
  · obtain ⟨t', hexec', hin, hout, -⟩ := (hregs x s hm).1 (canRun_of_exec_next hexec)
    cases hexec.symm.trans hexec'
    obtain ⟨hi, lo, hfetch, hread⟩ := fetch_of_read_eq hpc hsame
    refine ⟨hi, lo, hfetch, fun a b hab => ?_⟩
    rw [hread a b hab]
    exact ⟨fun k hk ha => ha ▸ hin k hk, hout a⟩
  · obtain ⟨t', hexec', hundreds, htens, hones, hout, -⟩ := (hdigits x s hm).1 (canRun_of_exec_next hexec)
    cases hexec.symm.trans hexec'
    obtain ⟨hi, lo, hfetch, hread⟩ := fetch_of_read_eq hpc hsame
    refine ⟨hi, lo, hfetch, fun a b hab => ?_⟩
    rw [hread a b hab]
    exact ⟨fun ha => ha ▸ hundreds, fun ha => ha ▸ htens, fun ha => ha ▸ hones, hout a⟩

end Sys2Proof.Machine
end
section
/-! R35, R180 to R185: the framebuffer instructions and the array that the host reads. -/

namespace Sys2Proof.Machine

/-- Settles O46: the arm is one draw of the cleared framebuffer. -/
theorem clearScreenClearsEveryCell : Obligations.ClearScreenClearsEveryCell :=
  ⟨encodes_cls, fun s => ⟨_, exec_cls s, Framebuffer.cell_clear, rfl, rfl, rfl, (keepsExcept_draw s _).finish _⟩⟩

/-! ### DXYN -/

/-- DXYN completes exactly when both of its checks pass, with the blit of its pixels (R183, R229). -/
theorem exec_drw_next {x y : Reg} {n : Nat} {s t : State} :
    exec (.drw x y n) s = .next t ↔ (n = 0 ∨ s.index.toNat + n ≤ 0x1000) ∧ OnGrid (drwPixels x y n s) ∧
      t = (blitState (drwPixels x y n s) s).finish (s.pc + 2) := by
  rw [exec_drw, guarded_next, guarded_next, checkRange_none, checkPixels_none, Host.Outcome.next.injEq,
    eq_comm (b := t)]
  rfl

/-- The cells after a blit of distinct pixels on the grid (R183). -/
theorem cell_blitState {ps : List (Nat × Nat)} (hg : OnGrid ps) (hn : ps.Nodup) (s : State) (a b : Nat) :
    Framebuffer.cell (blitState ps s).fb a b = (Framebuffer.cell s.fb a b ^^ decide ((a, b) ∈ ps)) :=
  cell_blit hg hn s.fb a b

/-- VF after it is 1 exactly on a collision (R183). -/
theorem vf_blitState_eq_one {ps : List (Nat × Nat)} (hg : OnGrid ps) (hn : ps.Nodup) (s : State) :
    (blitState ps s).getV vf = 1 ↔ ∃ a b, (a, b) ∈ ps ∧ Framebuffer.cell s.fb a b = true := by
  rw [blitState, State.getV_setV, if_pos rfl, flag_eq_one, collision_blit hg hn, Prod.exists]

theorem keepsExcept_blitState (ps : List (Nat × Nat)) (s : State) :
    KeepsExcept [vf] [.fb, .drawFlag] s (blitState ps s) :=
  (keepsExcept_draw s _).trans (keepsExcept_setV _ vf _)

/-- Settles O47: the cells and VF of the blit, whose pixels are the set pixels. -/
theorem drawInvertsCellsUnderSprite : Obligations.DrawInvertsCellsUnderSprite := by
  refine ⟨encodes_drw, fun x y n s hrange hgrid => ?_⟩
  have hg : OnGrid (drwPixels x y n s) := onGrid_drwPixels.2 hgrid
  have hn := nodup_drwPixels x y n s
  have hexec := exec_drw_next.2 ⟨hrange, hg, rfl⟩
  refine ⟨_, hexec, fun a b h => ?_, fun a b h => ?_, ?_, ?_, rfl, rfl, rfl, (keepsExcept_blitState _ s).finish _⟩
  · rw [State.finish_fb, cell_blitState hg hn, decide_eq_true (mem_drwPixels.2 h), Bool.xor_true]
  · rw [State.finish_fb, cell_blitState hg hn, decide_eq_false (mem_drwPixels.not.2 h), Bool.xor_false]
  · exact (drw_writesOnlyFlag hexec).1.symm
  · simpa only [State.getV_finish, mem_drwPixels] using vf_blitState_eq_one hg hn s

/-- The pixels depend on `I`, the coordinates and the sprite's own bytes only (R181). -/
theorem drwPixels_congr {x y : Reg} {n : Nat} {s u : State} (hindex : u.index = s.index) (hx : u.getV x = s.getV x)
    (hy : u.getV y = s.getV y)
    (hbytes : ∀ r, r < n → Memory.read u.mem (s.index.toNat + r) = Memory.read s.mem (s.index.toNat + r)) :
    drwPixels x y n u = drwPixels x y n s := by
  rw [drwPixels, drwPixels, indexAddr, indexAddr, hindex, hx, hy]
  refine List.flatMap_congr fun r hr => ?_
  exact congrArg _ (hbytes r (List.mem_range.1 hr))

/-- Settles O48: the second blit is of the same pixels, so each cell is inverted twice or not at all. -/
theorem doubleDrawRestoresCells : Obligations.DoubleDrawRestoresCells := by
  intro x y n s t u v hst hfb hindex hx hy hbytes huv
  obtain ⟨-, hg, rfl⟩ := exec_drw_next.1 hst
  obtain ⟨-, -, rfl⟩ := exec_drw_next.1 huv
  rw [drwPixels_congr hindex hx hy hbytes]
  have hn := nodup_drwPixels x y n s
  have hfirst (a b : Nat) : Framebuffer.cell u.fb a b =
      (Framebuffer.cell s.fb a b ^^ decide ((a, b) ∈ drwPixels x y n s)) := by
    rw [hfb, State.finish_fb, cell_blitState hg hn]
  constructor
  · refine Framebuffer.ext_cell fun a b _ _ => ?_
    rw [State.finish_fb, cell_blitState hg hn, hfirst, Bool.xor_assoc, Bool.xor_self, Bool.xor_false]
  · rw [State.getV_finish, vf_blitState_eq_one hg hn]
    refine exists_congr fun a => exists_congr fun b => ?_
    rw [mem_drwPixels]
    refine and_congr_right fun hpixel => ?_
    rw [hfirst, decide_eq_true (mem_drwPixels.2 hpixel), Bool.xor_true, Bool.not_eq_true']

/-! ### The array of the host -/

section rows
/-! Rows of `width` elements, laid one after the other. -/

variable {α : Type} {row : Nat → List α} {width : Nat} (hwidth : ∀ y, (row y).length = width)
include hwidth

theorem length_flatMap_range (n : Nat) : ((List.range n).flatMap row).length = n * width := by
  simp [List.length_flatMap, hwidth]

theorem getElem?_flatMap_range {n x y : Nat} (hx : x < width) (hy : y < n) :
    ((List.range n).flatMap row)[y * width + x]? = (row y)[x]? := by
  induction n with
  | zero => omega
  | succ n ih =>
    rw [List.range_succ, List.flatMap_append, List.flatMap_singleton]
    have hlen := length_flatMap_range hwidth n
    obtain hlt | rfl := Nat.lt_succ_iff_lt_or_eq.1 hy
    · have hbefore : y * width + x < n * width := by
        calc y * width + x < (y + 1) * width := by rw [Nat.add_one_mul]; omega
          _ ≤ n * width := Nat.mul_le_mul_right width hlt
      rw [List.getElem?_append_left (by omega), ih hlt]
    · rw [List.getElem?_append_right (by omega), hlen, Nat.add_sub_cancel_left]

end rows

/-- Settles O49: 32 rows of 64 bytes. -/
theorem framebufferIsRowMajorBytes : Obligations.FramebufferIsRowMajorBytes := by
  intro fb
  have hwidth (y : Nat) : ((List.range Config.fbWidth).map fun x =>
      if Framebuffer.cell fb x y then (1 : Byte) else 0).length = 64 := by simp
  refine ⟨length_flatMap_range hwidth 32, fun x y hx hy => ?_⟩
  refine (getElem?_flatMap_range hwidth hx hy).trans ?_
  simp [hx]

end Sys2Proof.Machine
end

section
/-! R200 to R207: the key skips, the wait for a key and the timer transfers. -/

namespace Sys2Proof.Machine

/-! ### EX9E and EXA1 -/

/-- Only the two key skips check a key number (R225). -/
theorem armFault_keyFault {i : Instr} {s : State} {k : Byte} :
    ArmFault i s (.keyFault k) ↔ ∃ x, (i = .skp x ∨ i = .sknp x) ∧ k = s.getV x ∧ 0xF < k.toNat := by
  cases i
  case skp | sknp =>
    simp only [ArmFault, Fault.keyFault.injEq, reduceCtorEq, Instr.skp.injEq, Instr.sknp.injEq, or_false, false_or,
      exists_eq_left']
    constructor
    · rintro ⟨hkey, rfl⟩
      exact ⟨rfl, hkey⟩
    · rintro ⟨rfl, hkey⟩
      exact ⟨hkey, rfl⟩
  case ldBVx | ldMemVx | ldVxMem | drw => simp [ArmFault, checkRange_some, checkPixels_some]
  -- the other arms raise a stack fault or none
  all_goals simp [ArmFault]

theorem exec_skp_key {x : Reg} {s : State} {k : Fin 16} (h : (s.getV x).toNat = k.val) :
    exec (.skp x) s = .next (s.finish (if s.keys[k] ≠ 0 then s.pc + 4 else s.pc + 2)) := by
  simp [exec_skp, h]

theorem exec_sknp_key {x : Reg} {s : State} {k : Fin 16} (h : (s.getV x).toNat = k.val) :
    exec (.sknp x) s = .next (s.finish (if s.keys[k] = 0 then s.pc + 4 else s.pc + 2)) := by
  simp [exec_sknp, h]

/-- Settles O50: both rows are skips, on the key's level and on its negation; the fault is that of their check. -/
theorem skipOnKeyLevel : Obligations.SkipOnKeyLevel := by
  refine ⟨encodes_skp, encodes_sknp, fun x s k hk => ⟨?_, ?_⟩, fun i s k => exec_fault.trans armFault_keyFault⟩
  · obtain ⟨t, hexec, htaken, hnot, hdone, -, hframe⟩ := exec_skip_of_eq _ (exec_skp_key hk)
    exact ⟨t, hexec, htaken, fun h => hnot (not_not.2 h), hdone, hframe⟩
  · obtain ⟨t, hexec, htaken, hnot, hdone, -, hframe⟩ := exec_skip_of_eq _ (exec_sknp_key hk)
    exact ⟨t, hexec, htaken, hnot, hdone, hframe⟩

/-! ### FX0A -/

/-- With a smallest pressed key `k` the arm is one register write of its number (R203). -/
theorem exec_ldVxK_pressed {s : State} {k : Fin 16} (hk : s.keys[k] ≠ 0) (hlow : ∀ j : Fin 16, j < k → s.keys[j] = 0)
    (x : Reg) : exec (.ldVxK x) s = .next ((s.setV x (BitVec.ofNat 8 k.val)).finish (s.pc + 2)) :=
  exec_ldVxK_some (firstKey_some.2 ⟨k.isLt, hk, fun j hj => hlow ⟨j, hj.trans k.isLt⟩ hj⟩) x

theorem toNat_ofNat_key (k : Fin 16) : (BitVec.ofNat 8 k.val).toNat = k.val := by
  rw [BitVec.toNat_ofNat]
  omega

/-- Settles O51: the arm is one register write, or the report `Waiting`. -/
theorem waitForKeyStoresSmallest : Obligations.WaitForKeyStoresSmallest := by
  refine ⟨encodes_ldVxK, fun x s => ⟨fun k hk hlow => ?_, fun hnone => ?_⟩⟩
  · obtain ⟨t, hexec, hv, hrest⟩ := exec_setV_of_eq (exec_ldVxK_pressed hk hlow x)
    exact ⟨t, hexec, by rw [hv, toNat_ofNat_key], hrest⟩
  · exact ⟨_, exec_ldVxK_none (firstKey_none.2 hnone) x, rfl, rfl, keepsExcept_report s _⟩

/-- A step that ends `Waiting` is FX0A's with no key pressed (R204). -/
theorem step_next_waiting {s t : State} (h : step s = .next t) (hwaits : t.outcome = .waiting) :
    ∃ x, RunsAt s (.ldVxK x) ∧ firstKey s = none ∧ t = timerPhase (s.report .waiting) := by
  obtain ⟨w, u, hfetch, rfl, ⟨-, rfl⟩ | ⟨i, hd, hexec⟩⟩ := step_next h
  · cases hwaits
  · obtain ⟨hdone, -⟩ | ⟨-, -, x, rfl⟩ := exec_next_pc hexec
    · cases hdone.symm.trans hwaits
    · refine ⟨x, ⟨w, hfetch, hd⟩, ?_⟩
      cases hkey : firstKey s with
      | none =>
        rw [exec_ldVxK_none hkey] at hexec
        cases hexec
        exact ⟨rfl, rfl⟩
      | some k =>
        rw [exec_ldVxK_some hkey] at hexec
        cases hexec
        cases hwaits

theorem step_waits {s : State} {x : Reg} (hruns : RunsAt s (.ldVxK x)) (hkey : firstKey s = none) :
    step s = .next (timerPhase (s.report .waiting)) := by
  rw [step_of_runsAt hruns, exec_ldVxK_none hkey, afterArm_next]

/-- With the one key `k` pressed FX0A stores its number (R203). -/
theorem step_setKey {s : State} {x : Reg} (hruns : RunsAt s (.ldVxK x)) (hkey : firstKey s = none) (k : Fin 16)
    {b : Byte} (hb : b ≠ 0) :
    step (setKey k b s) =
      .next (timerPhase (((setKey k b s).setV x (BitVec.ofNat 8 k.val)).finish (s.pc + 2))) := by
  have hpressed : (setKey k b s).keys[k] ≠ 0 := by rwa [getElem_keys_setKey, if_pos rfl]
  have hlow (j : Fin 16) (hj : j < k) : (setKey k b s).keys[j] = 0 := by
    rw [getElem_keys_setKey, if_neg hj.ne]
    exact firstKey_none.1 hkey j
  have hruns' : RunsAt (setKey k b s) (.ldVxK x) := hruns.congr rfl rfl
  rw [step_of_runsAt hruns', exec_ldVxK_pressed hpressed hlow, afterArm_next]
  rfl

/-- Settles O52: a wait leaves memory, `pc` and the keys, so the same FX0A runs next; it waits again, or stores the one
key that the host has pressed. -/
theorem waitRepeatsUntilKey : Obligations.WaitRepeatsUntilKey := by
  intro s t hstep hwaits
  obtain ⟨x, hruns, hkey, rfl⟩ := step_next_waiting hstep hwaits
  have hframe := keepsExcept_timerPhase_report s .waiting
  have hruns' : RunsAt (timerPhase (s.report .waiting)) (.ldVxK x) := hruns.congr rfl rfl
  refine ⟨x, hruns, rfl, hframe, ⟨_, step_waits hruns' hkey, rfl, rfl, ?_⟩, fun k b hb => ?_⟩
  · exact (hframe.trans (keepsExcept_timerPhase_report _ _)).mono (by simp) (by simp)
  · refine ⟨_, step_setKey hruns' hkey k hb, rfl, ?_, rfl, rfl, toNat_countDown _, toNat_countDown _, ?_⟩
    · rw [getV_timerPhase, State.getV_finish, State.getV_setV, if_pos rfl, toNat_ofNat_key]
    · exact (((hframe.trans (keepsExcept_setKey k b _)).trans ((keepsExcept_setV _ x _).finish _)).trans
        (keepsExcept_timerPhase _)).mono (by simp) (by simp)

/-! ### The timers -/

/-- Settles O53: the arms are one write of `V[X]`, of `DT` and of `ST`. -/
theorem timerTransfers : Obligations.TimerTransfers :=
  ⟨encodes_ldVxDT, encodes_ldDTVx, encodes_ldSTVx, fun x s => ⟨exec_setV_of_eq (exec_ldVxDT x s),
    ⟨_, exec_ldDTVx x s, rfl, rfl, rfl, (keepsExcept_setDT s _).finish _⟩,
    ⟨_, exec_ldSTVx x s, rfl, rfl, rfl, (keepsExcept_setST s _).finish _⟩⟩⟩

end Sys2Proof.Machine
end

section
/-! R39, R260 to R266: the reset state and the state that `load` leaves. -/

namespace Sys2Proof.Machine

section loadedMemory
/-! The bytes of `loadedMemory`, range by range. -/

variable (font : Font) {rom : List Byte} (hlen : rom.length ≤ 3584)
include hlen

theorem read_loadedMemory_font {a : Nat} (h : a < 80) : Memory.read (loadedMemory font rom) a = font.bytes[a] := by
  rw [Memory.read_loadedMemory font hlen, dif_pos h]

theorem read_loadedMemory_rom {k : Nat} (h : k < rom.length) :
    Memory.read (loadedMemory font rom) (0x200 + k) = rom[k] := by
  rw [Memory.read_loadedMemory font hlen, dif_neg (by omega), dif_pos (by omega)]
  simp only [Nat.add_sub_cancel_left]

theorem read_loadedMemory_zero {a : Nat} (h : 80 ≤ a ∧ a < 0x200 ∨ 0x200 + rom.length ≤ a) :
    Memory.read (loadedMemory font rom) a = 0 := by
  rw [Memory.read_loadedMemory font hlen, dif_neg (by omega), dif_neg (by omega)]

end loadedMemory

/-- Settles O55: the fields of the reset state, and the memory of a load of the empty program. -/
theorem resetLeavesZeroAndFont : Obligations.ResetLeavesZeroAndFont := by
  have hlen : ([] : List Byte).length ≤ 3584 := by decide
  refine ⟨⟨by decide, rfl, rfl, rfl, by decide, rfl, rfl, rfl, Framebuffer.cell_clear, by decide⟩,
    resetWith_defaultFont, fun font => ⟨fun a h => read_loadedMemory_font font hlen h, fun a h => ?_,
      Memory.wf_loadedMemory font hlen, rfl, keepsExcept_setMem State.reset _⟩⟩
  refine read_loadedMemory_zero font hlen ?_
  simp only [List.length_nil]
  omega

theorem keepsExcept_loadedState (font : Font) (rom : List Byte) (n : Nat) :
    KeepsExcept [] [.mem, .draws] State.reset { loadedState font rom with draws := n } where
  regs _ _ := rfl
  parts p hp := by cases p <;> simp_all [Part.same, loadedState]

/-- Settles O56: a load that is not too long leaves `loadedState`, whose memory is read range by range. -/
theorem loadInstallsProgram : Obligations.LoadInstallsProgram := by
  intro font rom s hlen
  refine ⟨_, transact_load_ok font s hlen, fun a h => read_loadedMemory_font font hlen h, fun a h => ?_,
    fun digit d r hd => ?_, fun k h => read_loadedMemory_rom font hlen h, fun a h => read_loadedMemory_zero font hlen h,
    rfl, rfl, keepsExcept_loadedState font rom s.draws, rfl⟩
  · exact (congrArg (·.extractLsb' 0 4) (read_loadedMemory_font font hlen h)).trans (font.low_bits h)
  · have haddr : (glyphAddr digit).toNat + r.val = 5 * d.val + r.val := by
      rw [toNat_glyphAddr, hd, Nat.mul_comm]
    rw [haddr]
    exact read_loadedMemory_font font hlen (by omega)

end Sys2Proof.Machine
end
